-- ==== Sys2Proof/Word.lean ====
section
/-! DEFINITION. The words of the block (00_scope.md R11): unsigned, bit 0 the least significant, nothing signed.
Addition modulo 2^32 and the bitwise operators of R12 are BitVec's own. -/

namespace Sys2Proof

/-- R11: an unsigned 32-bit value, the width of both ports and of every hash word. -/
abbrev Word := BitVec 32

/-- R11: an unsigned 8-bit value. -/
abbrev Byte := BitVec 8

/-- R11: an unsigned 64-bit value, the length counter's. -/
abbrev Word64 := BitVec 64

end Sys2Proof
end

