-- ==== Sys2Proof/Syntax.lean ====
section
/-! DEFINITION. The six commands of 30_encoding.md R64, one constructor per row of the opcode table, with the operands
of R65: the channel and, for FEED and DIGEST, the payload bytes. -/

namespace Sys2Proof

/-- R8: the two channels, by the names R69 gives them; their numbers are `Chan.number`. -/
inductive Chan where
  | sha1
  | sha256
deriving DecidableEq, Repr

/-- R64: the operations a header selects, before its payload is attached. -/
inductive Opcode where
  | init
  | feed
  | final
  | digest
  | dlen
  | status
deriving DecidableEq, Repr

/-- R64, R65: the commands with their operands. -/
inductive Instr where
  /-- INIT (R101): create an instance. -/
  | init (c : Chan)
  /-- FEED (R103): append payload bytes to the open instance. -/
  | feed (c : Chan) (data : List Byte)
  /-- FINAL (R110): pad, finalize and answer the digest. -/
  | final (c : Chan)
  /-- DIGEST (R170): the one-shot digest of the payload. -/
  | digest (c : Chan) (data : List Byte)
  /-- DLEN (R175): the digest length. -/
  | dlen (c : Chan)
  /-- STATUS (R115): the STATUS word. -/
  | status (c : Chan)
deriving DecidableEq, Repr

/-- R65: the channel operand. -/
def Instr.chan : Instr → Chan
  | .init c => c
  | .feed c _ => c
  | .final c => c
  | .digest c _ => c
  | .dlen c => c
  | .status c => c

/-- R64: the operation. -/
def Instr.opcode : Instr → Opcode
  | .init _ => .init
  | .feed _ _ => .feed
  | .final _ => .final
  | .digest _ _ => .digest
  | .dlen _ => .dlen
  | .status _ => .status

/-- R65: the payload; empty for the commands without one. -/
def Instr.data : Instr → List Byte
  | .init _ => []
  | .feed _ d => d
  | .final _ => []
  | .digest _ d => d
  | .dlen _ => []
  | .status _ => []

end Sys2Proof
end

