-- ==== Sys2Proof/WellFormed.lean ====
section
/-! DEFINITION. Which instructions an encoding can carry: COUNT has 16 bits (30_encoding.md R62, 00_scope.md R9
`COUNT_MAX`), so a payload is at most 65535 bytes. The channel needs no check: `Chan` has only the two legal ones. -/

namespace Sys2Proof

/-- R9: the most payload bytes one frame carries. -/
def countMax : Nat := 65535

/-- R62, R64: an instruction some frame encodes. -/
def Instr.wf (i : Instr) : Bool := decide (i.data.length ≤ countMax)

end Sys2Proof
end

