-- ==== Sys2Proof/Decode.lean ====
section
/-! DEFINITION. 30_encoding.md: frames of words to instructions and back. The byte order of payload words (R13, R63,
20_memory.md R41 (d)) is decided here once, for commands and responses alike. -/

namespace Sys2Proof

/-! Bytes and words (R13, R41). -/

/-- R13: the four bytes of a word, most significant first. -/
def be32 (x : Word) : List Byte :=
  [x.extractLsb' 24 8, x.extractLsb' 16 8, x.extractLsb' 8 8, x.extractLsb' 0 8]

/-- R13: the word of four bytes, `b0` the most significant. -/
def be32dec (b0 b1 b2 b3 : Byte) : Word := (b0 ++ b1 ++ b2 ++ b3 : BitVec 32)

/-- R63, R70: bytes packed four to a word, most significant first, with zero in the unused lanes of the last word. -/
def packWords : List Byte → List Word
  | [] => []
  | [a] => [be32dec a 0 0 0]
  | [a, b] => [be32dec a b 0 0]
  | [a, b, c] => [be32dec a b c 0]
  | a :: b :: c :: d :: rest => be32dec a b c d :: packWords rest

/-- R61, R63: the first `count` bytes the data words carry; the unused lanes of the last word are not read. -/
def payload (count : Nat) (ws : List Word) : List Byte := (ws.flatMap be32).take count

/-- R61, R70: how many words carry `count` bytes: `ceil(count / 4)`. -/
def wordsFor (count : Nat) : Nat := (count + 3) / 4

/-! The fields of a command header (R62). -/

/-- R62: `OPCODE`, bits 31 to 24. -/
def opcodeField (h : Word) : BitVec 8 := h.extractLsb' 24 8

/-- R62: `CHAN`, bits 23 to 20. -/
def chanField (h : Word) : BitVec 4 := h.extractLsb' 20 4

/-- R62: `RSV`, bits 19 to 16. -/
def rsvField (h : Word) : BitVec 4 := h.extractLsb' 16 4

/-- R62: `COUNT`, bits 15 to 0. -/
def countField (h : Word) : BitVec 16 := h.extractLsb' 0 16

/-- R61: how many data words follow the header `h`, legal or not. -/
def dataWords (h : Word) : Nat := wordsFor (countField h).toNat

/-- R61: the words of the whole frame that starts with the header `h`. -/
def frameLen (h : Word) : Nat := 1 + dataWords h

/-! The opcode map (R64) and the channel numbers (R8). -/

/-- R64: the OPCODE numbers. -/
def Opcode.code : Opcode → BitVec 8
  | .init => 0x01
  | .feed => 0x02
  | .final => 0x03
  | .digest => 0x04
  | .dlen => 0x05
  | .status => 0x06

/-- R64, R67: the operation an OPCODE number selects; every other number is reserved. -/
def Opcode.ofCode (x : BitVec 8) : Option Opcode :=
  if x = 0x01 then some .init
  else if x = 0x02 then some .feed
  else if x = 0x03 then some .final
  else if x = 0x04 then some .digest
  else if x = 0x05 then some .dlen
  else if x = 0x06 then some .status
  else none

/-- R64: the commands that carry a payload. -/
def Opcode.hasPayload : Opcode → Bool
  | .feed => true
  | .digest => true
  | .init => false
  | .final => false
  | .dlen => false
  | .status => false

/-- R8: the channel numbers, in the width of the `CHAN` field. -/
def Chan.number : Chan → BitVec 4
  | .sha1 => 0
  | .sha256 => 1

/-- R66 (L3): the channel a `CHAN` field names; 2 to 15 are reserved. -/
def Chan.ofNumber (x : BitVec 4) : Option Chan :=
  if x = 0 then some .sha1 else if x = 1 then some .sha256 else none

/-! Legality (R66). -/

/-- R66: why a header is illegal. -/
inductive IllegalCause where
  /-- (L1): a reserved OPCODE. -/
  | opcode
  /-- (L2): RSV is not 0. -/
  | reservedField
  /-- (L3): CHAN is above 1. -/
  | channel
  /-- (L4): COUNT is not 0 on a command without payload. -/
  | count
deriving DecidableEq, Repr

/-- R66: what a header selects, or why it is illegal. Only the header is read. -/
def decodeHeader (h : Word) : Except IllegalCause (Opcode × Chan) :=
  match Opcode.ofCode (opcodeField h) with
  | none => .error .opcode
  | some op =>
    if rsvField h ≠ 0 then .error .reservedField
    else match Chan.ofNumber (chanField h) with
      | none => .error .channel
      | some c => if !op.hasPayload && countField h ≠ 0 then .error .count else .ok (op, c)

/-- R66: the header is legal. -/
def legalHeader (h : Word) : Bool :=
  match decodeHeader h with
  | .ok _ => true
  | .error _ => false

/-- R65, R100: the instruction of an operation, a channel and the payload. -/
def Instr.ofParts (op : Opcode) (c : Chan) (data : List Byte) : Instr :=
  match op with
  | .init => .init c
  | .feed => .feed c data
  | .final => .final c
  | .digest => .digest c data
  | .dlen => .dlen c
  | .status => .status c

/-! Frames (R61). -/

/-- Why the words at the head of the command port are no instruction. -/
inductive DecodeError where
  /-- R202: there is no word. -/
  | noHeader
  /-- R204: the frame lacks `n` data words. -/
  | missingWords (n : Nat)
  /-- R66: the whole frame is there and its header `h` is illegal; `rest` is what stands behind the frame (R61). -/
  | illegal (cause : IllegalCause) (h : Word) (rest : List Word)
deriving DecidableEq, Repr

/-- R61, R100, R204: the first frame's instruction and the words behind the frame. -/
def decodeFrame : List Word → Except DecodeError (Instr × List Word)
  | [] => .error .noHeader
  | h :: rest =>
    if rest.length < dataWords h then .error (.missingWords (dataWords h - rest.length))
    else match decodeHeader h with
      | .error cause => .error (.illegal cause h (rest.drop (dataWords h)))
      | .ok (op, c) =>
        .ok (Instr.ofParts op c (payload (countField h).toNat (rest.take (dataWords h))), rest.drop (dataWords h))

/-! The encoder (R62, R69). -/

/-- R62: a header word from its fields, RSV 0. -/
def headerWord (op : BitVec 8) (chan : BitVec 4) (count : Nat) : Word :=
  (op ++ chan ++ (0 : BitVec 4) ++ BitVec.ofNat 16 count : BitVec 32)

/-- R69: the frame of a well-formed instruction: the header with COUNT = |bytes|, then the packed payload. -/
def encode (i : Instr) : List Word :=
  headerWord i.opcode.code i.chan.number i.data.length :: packWords i.data

/-! The decode table of R74. -/

/-- One row of R74: a header word `h` is of this row when `h &&& mask = match`. -/
structure OpcodeRow where
  opcode : Opcode
  pattern : Word
  mask : Word
deriving DecidableEq, Repr

/-- R74: the complete decode of a command header. -/
def opcodeTable : List OpcodeRow :=
  [⟨.init, 0x01000000, 0xFFEFFFFF⟩, ⟨.feed, 0x02000000, 0xFFEF0000⟩, ⟨.final, 0x03000000, 0xFFEFFFFF⟩,
   ⟨.digest, 0x04000000, 0xFFEF0000⟩, ⟨.dlen, 0x05000000, 0xFFEFFFFF⟩, ⟨.status, 0x06000000, 0xFFEFFFFF⟩]

/-- R74: the decode of a row. -/
def OpcodeRow.matches (r : OpcodeRow) (h : Word) : Bool := decide (h &&& r.mask = r.pattern)

/-! The host's numbering of a table word (log 12). -/

/-- The frame whose first `nbits` bits are those of `w`, bit 0 the least significant bit of the header and each later
word's bits counting on from it; every bit above `nbits` is 0. Log 12. -/
def tableFrame (nbits w : Nat) : List Word :=
  let bits := w % 2 ^ nbits
  let h := BitVec.ofNat 32 bits
  h :: (List.range (dataWords h)).map fun j => BitVec.ofNat 32 (bits >>> (32 * (j + 1)))

/-- The instruction the decoder reads from the opcode table's word `w` of `nbits` bits; none where it refuses. -/
def decodeTableWord (nbits w : Nat) : Option Instr :=
  match decodeFrame (tableFrame nbits w) with
  | .ok (i, _) => some i
  | .error _ => none

end Sys2Proof
end

