-- ==== Sys2Proof/Config.lean ====
section
/-! DEFINITION. What an implementation fixes and what the spec leaves unspecified. Every `opaque` here is a constant
without a body: no proof can see its value, so a claim holds whatever it is. -/

namespace Sys2Proof

/-- R10: how far CMD_FIFO_DEPTH exceeds its least value 1. Log 2. -/
opaque Config.cmdFifoExtra : Nat

/-- R10: how far RSP_FIFO_DEPTH exceeds its least value 9. Log 2. -/
opaque Config.rspFifoExtra : Nat

/-- R10, R32: the words the command port holds; an open parameter, at least 1. -/
def Config.cmdFifoDepth : Nat := Config.cmdFifoExtra + 1

/-- R10, R32: the words the response port holds; an open parameter, at least 9. -/
def Config.rspFifoDepth : Nat := Config.rspFifoExtra + 9

/-- R35, R36: hash word `i` of channel `channel` after the reset that makes draw `draw`. The spec calls it unspecified
and forbids a model to give it a value; it is drawn freely. DESIGN CHOICE, log 1. -/
opaque Config.unspecifiedHash (draw channel i : Nat) : Word

/-- R35, R36: the length counter of channel `channel` after the reset that makes draw `draw`, drawn freely.
DESIGN CHOICE, log 1. -/
opaque Config.unspecifiedTotal (draw channel : Nat) : Word64

end Sys2Proof
end

