-- ==== Sys2Proof/Machine/State.lean ====
section
/-! DEFINITION. The state of the block, 10_state.md R20: the two channels and the two port queues; beside it, as the
model's own field `env`, the state of the agents outside the block (00_scope.md R18). The block has no memory (R40). -/

namespace Sys2Proof.Machine

/-- R25: the lifecycle of a channel; the numbers are `Phase.code`. -/
inductive Phase where
  /-- 0, NONE: no instance exists. -/
  | none
  /-- 1, CREATED: INIT has run, no FEED yet. -/
  | created
  /-- 2, UPDATING: at least one FEED has been accepted. -/
  | updating
  /-- 3, FINALIZED: FINAL has run. -/
  | finalized
deriving DecidableEq, Repr

/-- R21 to R27: one channel with `n` hash words. -/
structure Channel (n : Nat) where
  /-- R25. -/
  phase : Phase
  /-- R21: the hash state words `H[0]` to `H[n-1]`. -/
  H : Vector Word n
  /-- R24: the pending block's valid bytes, at most 63 between commands. -/
  pend : List Byte
  /-- R26: the length in bits, modulo 2^64. -/
  total : Word64
  /-- R27: the sticky length-wrap flag. -/
  lenwrap : Bool
deriving DecidableEq, Repr

/-- R18, R44, R200: one event of the agents outside the block, or the engine's turn. DESIGN CHOICE, log 6. -/
inductive Turn where
  /-- R32, R44: host number `host` appends the word `w` to the command port. -/
  | push (host : Nat) (w : Word)
  /-- R32, R44: a host removes a word from the response port. -/
  | pop
  /-- The engine gets a turn. -/
  | engine
  /-- R200: reset is asserted and released. -/
  | reset
deriving DecidableEq, Repr

/-- The model's own state of the agents outside the block, no part of R20's tuple. DESIGN CHOICE, log 6. -/
structure Env where
  /-- What happens next outside the block, in order; with none left, every step is the engine's. -/
  turns : List Turn
  /-- The words the hosts have removed from the response port, oldest first. -/
  received : List Word
  /-- R53: the host that appended the last word to the command port. Log 8. -/
  tailHost : Nat
  /-- The index of the free draws the next reset makes (R36). Log 1. -/
  draws : Nat
deriving DecidableEq, Repr

/-- R20: the architectural state `(ch[0], ch[1], cmdq, rspq)`, and the outside world. -/
structure State where
  /-- R8: channel 0, SHA-1, 5 hash words. -/
  ch0 : Channel 5
  /-- R8: channel 1, SHA-256, 8 hash words. -/
  ch1 : Channel 8
  /-- R32: the command port, oldest word first. -/
  cmdq : List Word
  /-- R32: the response port, oldest word first. -/
  rspq : List Word
  /-- The agents outside the block (the model's own). -/
  env : Env
deriving DecidableEq, Repr

/-- The states in which the engine has no step and no outside event is scheduled. The spec calls them stuck, not faults
of the hardware (R204). All are safe: the model stops where the hardware waits. Log 3. -/
inductive Fault where
  /-- Raised by the engine's step when the command port is empty (R196, R202). Safe. -/
  | engineIdle
  /-- Raised by the engine's step when the head frame lacks data words (R204). Safe. -/
  | incompleteFrame
  /-- Raised by the engine's step when the response port has no room for the whole response (R205). Safe. -/
  | responsePortFull
deriving DecidableEq, Repr

/-- What the model refuses. -/
inductive Refusal where
  /-- Raised by `exec`'s arm of an instruction that has no meaning yet. Safe. -/
  | notModelled (mnemonic : String)
  /-- Raised by a host's append inside another host's frame: "A model refuses such a schedule" (R53). Safe. Log 8. -/
  | interleavedFrame
deriving DecidableEq, Repr

/-- R35: a channel after the reset that makes draw `draw`; `H` and `total` are drawn freely (R36, log 1). -/
def Channel.afterReset (n channel draw : Nat) : Channel n where
  phase := .none
  H := Vector.ofFn fun i => Config.unspecifiedHash draw channel i.val
  pend := []
  total := Config.unspecifiedTotal draw channel
  lenwrap := false

/-- R35, R200, R202: the block right after power-on, with nothing scheduled outside it (log 5, 6). -/
def State.reset : State where
  ch0 := Channel.afterReset 5 0 0
  ch1 := Channel.afterReset 8 1 0
  cmdq := []
  rspq := []
  env := { turns := [], received := [], tailHost := 0, draws := 0 }

end Sys2Proof.Machine
end

