-- ==== Sys2Proof/Machine/Operands.lean ====
section
/-! DEFINITION. The operand side of the commands: the digest lengths, the byte forms of counters and hash words. -/

namespace Sys2Proof.Machine

/-- R13: the eight bytes of a 64-bit value, most significant first. -/
def be64 (x : Word64) : List Byte := be32 (x.extractLsb' 32 32) ++ be32 (x.extractLsb' 0 32)

/-- R112: the hash words as digest bytes, each word big-endian, in order. -/
def serialize {n : Nat} (H : Vector Word n) : List Byte := H.toList.flatMap be32

/-- R19, R174: the digest length of a channel's algorithm, in bytes. -/
def digestLength : Chan → Nat
  | .sha1 => 20
  | .sha256 => 32

end Sys2Proof.Machine
end

