-- ==== Sys2Proof/Machine/Flags.lean ====
section
/-! DEFINITION. The status fields: the phase, the length counter with its sticky wrap flag, the STATUS word, and the
status codes of responses. -/

namespace Sys2Proof.Machine

/-- R25: the number of a phase, as STATUS shows it. -/
def Phase.code : Phase → BitVec 2
  | .none => 0
  | .created => 1
  | .updating => 2
  | .finalized => 3

/-- R103, R110: the phases in which FEED and FINAL are accepted. -/
def Phase.isOpen : Phase → Bool
  | .created => true
  | .updating => true
  | .none => false
  | .finalized => false

/-- R106: the length counter after `n` more bytes, modulo 2^64. -/
def addLength (total : Word64) (n : Nat) : Word64 := BitVec.ofNat 64 (total.toNat + 8 * n)

/-- R106: the addition carries out of bit 63. -/
def lengthCarries (total : Word64) (n : Nat) : Bool := decide (2 ^ 64 ≤ total.toNat + 8 * n)

/-- R30, R115: the STATUS word of a channel. -/
def Channel.statusWord {n : Nat} (ch : Channel n) : Word :=
  ch.phase.code.zeroExtend 32 ||| ((BitVec.ofBool ch.lenwrap).zeroExtend 32 <<< 2)
    ||| (BitVec.ofNat 32 ch.pend.length <<< 8)

/-- R71: the statuses of a response. -/
inductive Status where
  | ok
  | invalidState
  /-- Assigned but never raised (R182). -/
  | bufferTooLarge
  | illegalCommand
deriving DecidableEq, Repr

/-- R71: the status codes. -/
def Status.code : Status → BitVec 8
  | .ok => 0x00
  | .invalidState => 0x01
  | .bufferTooLarge => 0x02
  | .illegalCommand => 0x03

end Sys2Proof.Machine
end

