-- ==== Sys2Proof/Machine/Bits.lean ====
section
/-! DEFINITION. The rotation and shift operators of 00_scope.md R12 on 32-bit words. -/

namespace Sys2Proof.Machine

/-- R12: `SHR^n(x)`, zero-filled. -/
def shr (n : Nat) (x : Word) : Word := x >>> n

/-- R12: `ROTL^n(x)`, for `0 < n < 32`. -/
def rotl (n : Nat) (x : Word) : Word := (x <<< n) ||| (x >>> (32 - n))

/-- R12: `ROTR^n(x)`, for `0 < n < 32`. -/
def rotr (n : Nat) (x : Word) : Word := (x >>> n) ||| (x <<< (32 - n))

/-- R132, R152: the choice function. -/
def choose (x y z : Word) : Word := (x &&& y) ^^^ (~~~x &&& z)

/-- R132, R152: the majority function (C8). -/
def majority (x y z : Word) : Word := (x &&& y) ^^^ (x &&& z) ^^^ (y &&& z)

/-- R132: the parity function. -/
def parity (x y z : Word) : Word := x ^^^ y ^^^ z

end Sys2Proof.Machine
end

