-- ==== Sys2Proof/Machine/Sha1.lean ====
section
/-! DEFINITION. The SHA-1 compression step, 41_sha1_compression.md. -/

namespace Sys2Proof.Machine

/-- R133, R155: the 16 big-endian words of a 64-byte block. (A missing byte of a shorter list would read as 0; every
caller passes 64 bytes, log 11.) -/
def loadBlock (B : List Byte) : List Word :=
  (List.range 16).map fun i =>
    be32dec (B.getD (4 * i) 0) (B.getD (4 * i + 1) 0) (B.getD (4 * i + 2) 0) (B.getD (4 * i + 3) 0)

/-- R130: the SHA-1 initial value. -/
def iv1 : Vector Word 5 := #v[0x67452301, 0xEFCDAB89, 0x98BADCFE, 0x10325476, 0xC3D2E1F0]

/-- R131: the round constant of round `t`. -/
def k1 (t : Nat) : Word :=
  if t < 20 then 0x5A827999
  else if t < 40 then 0x6ED9EBA1
  else if t < 60 then 0x8F1BBCDC
  else 0xCA62C1D6

/-- R132, C7: the mixing function of round `t`. -/
def f1 (t : Nat) (x y z : Word) : Word :=
  if t < 20 then choose x y z
  else if t < 40 then parity x y z
  else if t < 60 then majority x y z
  else parity x y z

/-- R134: the schedule with word `W[t]` appended to `W[0]` to `W[t-1]`. -/
def extend1 (W : List Word) (t : Nat) : List Word :=
  W ++ [rotl 1 (W.getD (t - 3) 0 ^^^ W.getD (t - 8) 0 ^^^ W.getD (t - 14) 0 ^^^ W.getD (t - 16) 0)]

/-- R133, R134: the 80 words of the message schedule. -/
def schedule1 (B : List Byte) : List Word := (List.range' 16 64).foldl extend1 (loadBlock B)

/-- R23, R135: the five round registers; no state, they live inside one compression step. -/
structure Rounds1 where
  a : Word
  b : Word
  c : Word
  d : Word
  e : Word
deriving DecidableEq, Repr

/-- R135: the round registers at the start. -/
def start1 (H : Vector Word 5) : Rounds1 := { a := H[0], b := H[1], c := H[2], d := H[3], e := H[4] }

/-- R136: round `t`, all assignments reading the values from before it. -/
def round1 (W : List Word) (r : Rounds1) (t : Nat) : Rounds1 where
  a := rotl 5 r.a + f1 t r.b r.c r.d + r.e + k1 t + W.getD t 0
  b := r.a
  c := rotl 30 r.b
  d := r.c
  e := r.d

/-- R136: the round registers after rounds 0 to `n - 1`. -/
def rounds1 (W : List Word) (H : Vector Word 5) (n : Nat) : Rounds1 := (List.range n).foldl (round1 W) (start1 H)

/-- R137: each round register added into its hash word, modulo 2^32. -/
def addInto1 (H : Vector Word 5) (r : Rounds1) : Vector Word 5 :=
  #v[H[0] + r.a, H[1] + r.b, H[2] + r.c, H[3] + r.d, H[4] + r.e]

/-- R138: the whole SHA-1 compression step. -/
def compress1 (H : Vector Word 5) (B : List Byte) : Vector Word 5 := addInto1 H (rounds1 (schedule1 B) H 80)

end Sys2Proof.Machine
end

