-- ==== Sys2Proof/Machine/Sha256.lean ====
section
/-! DEFINITION. The SHA-256 compression step, 42_sha256_compression.md. The block is loaded as for SHA-1 (R155). -/

namespace Sys2Proof.Machine

/-- R150: the SHA-256 initial value. -/
def iv256 : Vector Word 8 :=
  #v[0x6A09E667, 0xBB67AE85, 0x3C6EF372, 0xA54FF53A, 0x510E527F, 0x9B05688C, 0x1F83D9AB, 0x5BE0CD19]

/-- R151: the table of round constants, row by row. -/
def k256Table : List Word :=
  ([0x428a2f98, 0x71374491, 0xb5c0fbcf, 0xe9b5dba5, 0x3956c25b, 0x59f111f1, 0x923f82a4, 0xab1c5ed5] : List Word) ++
  [0xd807aa98, 0x12835b01, 0x243185be, 0x550c7dc3, 0x72be5d74, 0x80deb1fe, 0x9bdc06a7, 0xc19bf174] ++
  [0xe49b69c1, 0xefbe4786, 0x0fc19dc6, 0x240ca1cc, 0x2de92c6f, 0x4a7484aa, 0x5cb0a9dc, 0x76f988da] ++
  [0x983e5152, 0xa831c66d, 0xb00327c8, 0xbf597fc7, 0xc6e00bf3, 0xd5a79147, 0x06ca6351, 0x14292967] ++
  [0x27b70a85, 0x2e1b2138, 0x4d2c6dfc, 0x53380d13, 0x650a7354, 0x766a0abb, 0x81c2c92e, 0x92722c85] ++
  [0xa2bfe8a1, 0xa81a664b, 0xc24b8b70, 0xc76c51a3, 0xd192e819, 0xd6990624, 0xf40e3585, 0x106aa070] ++
  [0x19a4c116, 0x1e376c08, 0x2748774c, 0x34b0bcb5, 0x391c0cb3, 0x4ed8aa4a, 0x5b9cca4f, 0x682e6ff3] ++
  [0x748f82ee, 0x78a5636f, 0x84c87814, 0x8cc70208, 0x90befffa, 0xa4506ceb, 0xbef9a3f7, 0xc67178f2]

/-- R151: the round constant of round `t`. -/
def k256 (t : Nat) : Word := k256Table.getD t 0

/-- R153: Σ0. -/
def bigSigma0 (x : Word) : Word := rotr 2 x ^^^ rotr 13 x ^^^ rotr 22 x

/-- R153: Σ1. -/
def bigSigma1 (x : Word) : Word := rotr 6 x ^^^ rotr 11 x ^^^ rotr 25 x

/-- R154: σ0. -/
def smallSigma0 (x : Word) : Word := rotr 7 x ^^^ rotr 18 x ^^^ shr 3 x

/-- R154: σ1. -/
def smallSigma1 (x : Word) : Word := rotr 17 x ^^^ rotr 19 x ^^^ shr 10 x

/-- R156: the schedule with word `W[t]` appended to `W[0]` to `W[t-1]`. -/
def extend256 (W : List Word) (t : Nat) : List Word :=
  W ++ [smallSigma1 (W.getD (t - 2) 0) + W.getD (t - 7) 0 + smallSigma0 (W.getD (t - 15) 0) + W.getD (t - 16) 0]

/-- R155, R156: the 64 words of the message schedule. -/
def schedule256 (B : List Byte) : List Word := (List.range' 16 48).foldl extend256 (loadBlock B)

/-- R23, R157: the eight round registers; no state, they live inside one compression step. -/
structure Rounds256 where
  a : Word
  b : Word
  c : Word
  d : Word
  e : Word
  f : Word
  g : Word
  h : Word
deriving DecidableEq, Repr

/-- R157: the round registers at the start. -/
def start256 (H : Vector Word 8) : Rounds256 :=
  { a := H[0], b := H[1], c := H[2], d := H[3], e := H[4], f := H[5], g := H[6], h := H[7] }

/-- R157: round `t`, all assignments reading the values from before it. -/
def round256 (W : List Word) (r : Rounds256) (t : Nat) : Rounds256 :=
  let T1 := r.h + bigSigma1 r.e + choose r.e r.f r.g + k256 t + W.getD t 0
  let T2 := bigSigma0 r.a + majority r.a r.b r.c
  { a := T1 + T2, b := r.a, c := r.b, d := r.c, e := r.d + T1, f := r.e, g := r.f, h := r.g }

/-- R157: the round registers after rounds 0 to `n - 1`. -/
def rounds256 (W : List Word) (H : Vector Word 8) (n : Nat) : Rounds256 :=
  (List.range n).foldl (round256 W) (start256 H)

/-- R158: each round register added into its hash word, modulo 2^32. -/
def addInto256 (H : Vector Word 8) (r : Rounds256) : Vector Word 8 :=
  #v[H[0] + r.a, H[1] + r.b, H[2] + r.c, H[3] + r.d, H[4] + r.e, H[5] + r.f, H[6] + r.g, H[7] + r.h]

/-- R159: the whole SHA-256 compression step. -/
def compress256 (H : Vector Word 8) (B : List Byte) : Vector Word 8 :=
  addInto256 H (rounds256 (schedule256 B) H 64)

end Sys2Proof.Machine
end

