-- ==== Sys2Proof/Machine/Ops.lean ====
section
/-! DEFINITION. The named operations the meanings share: the block buffer and the padding encoder
(40_block_buffer.md), responses and errors (30_encoding.md section 5, 60_exceptions.md), the ports, and reset. The
block has no memory and no numbered registers to operate on (R21, R40). -/

namespace Sys2Proof.Machine

/-! The two algorithms. -/

/-- R8, R21: what distinguishes one channel's algorithm from the other's: its initial value and compression step. -/
structure Algo (n : Nat) where
  iv : Vector Word n
  compress : Vector Word n → List Byte → Vector Word n

/-- Channel 0's algorithm (R130, R138). -/
def algo1 : Algo 5 := { iv := iv1, compress := compress1 }

/-- Channel 1's algorithm (R150, R159). -/
def algo256 : Algo 8 := { iv := iv256, compress := compress256 }

/-! The block buffer and the padding encoder. -/

/-- R102: `k` turns of the loop that compresses the first 64 bytes of the buffer and removes them. -/
def absorbLoop {n : Nat} (A : Algo n) : Nat → Vector Word n → List Byte → Vector Word n × List Byte
  | 0, H, buf => (H, buf)
  | k + 1, H, buf => absorbLoop A k (A.compress H (buf.take 64)) (buf.drop 64)

/-- R102: `Absorb`. The loop runs while 64 bytes are buffered, which is `floor((|pend| + |data|) / 64)` times. -/
def absorb {n : Nat} (A : Algo n) (H : Vector Word n) (pend data : List Byte) : Vector Word n × List Byte :=
  absorbLoop A ((pend ++ data).length / 64) H (pend ++ data)

/-- R108: the number of zero bytes of the padding, `(55 - |pend|) mod 64` as the non-negative residue. -/
def padZeros (len : Nat) : Nat := (119 - len % 64) % 64

/-- R108: `Pad`, the padding and length encoder. -/
def pad (pend : List Byte) (total : Word64) : List Byte :=
  pend ++ [0x80] ++ List.replicate (padZeros pend.length) 0 ++ be64 total

/-- R110, R170: the blocks `P[64j .. 64j+64)` compressed in order. -/
def compressBlocks {n : Nat} (A : Algo n) (H : Vector Word n) (P : List Byte) : Vector Word n :=
  (List.range (P.length / 64)).foldl (fun H j => A.compress H ((P.drop (64 * j)).take 64)) H

/-- R170, R172: the hash words of a whole message, on the scratch channel that starts at the initial value. -/
def digestWords {n : Nat} (A : Algo n) (data : List Byte) : Vector Word n :=
  let S := absorb A A.iv [] data
  compressBlocks A S.1 (pad S.2 (BitVec.ofNat 64 (8 * data.length)))

/-- R101: the channel a new instance starts with. -/
def Channel.create {n : Nat} (A : Algo n) : Channel n :=
  { phase := .created, H := A.iv, pend := [], total := 0, lenwrap := false }

/-- R103 to R106: the channel after it has accepted `data`. -/
def Channel.accept {n : Nat} (A : Algo n) (ch : Channel n) (data : List Byte) : Channel n where
  phase := .updating
  H := (absorb A ch.H ch.pend data).1
  pend := (absorb A ch.H ch.pend data).2
  total := addLength ch.total data.length
  lenwrap := ch.lenwrap || lengthCarries ch.total data.length

/-- R110, R111: the channel after padding and finalizing; `total` and `lenwrap` keep their values. -/
def Channel.finish {n : Nat} (A : Algo n) (ch : Channel n) : Channel n :=
  { ch with phase := .finalized, H := compressBlocks A ch.H (pad ch.pend ch.total), pend := [] }

/-! Responses and errors. -/

/-- R70: a response header. -/
def responseHeader (st : Status) (chan : BitVec 4) (rcount : Nat) : Word :=
  headerWord st.code chan rcount

/-- R70: a response frame: the header, then the result bytes packed as in R63. -/
def responseFrame (st : Status) (chan : BitVec 4) (bytes : List Byte) : List Word :=
  responseHeader st chan bytes.length :: packWords bytes

/-- R100: `respond(st, bytes)`: the response frame appended to the response port. -/
def State.respond (s : State) (st : Status) (chan : BitVec 4) (bytes : List Byte) : State :=
  { s with rspq := s.rspq ++ responseFrame st chan bytes }

/-- R14, R184, R187: `raise st`, the block's one way to report an error: a response without a result, and no other
effect. There is no trap entry and nothing to return from (R187, R188). -/
def State.raise (s : State) (st : Status) (chan : BitVec 4) : State := s.respond st chan []

/-- What a command does to the channel its header names, and what it answers. `raised` discards the writes (R14). -/
inductive Reply (n : Nat) where
  /-- `respond(OK, bytes)` with the channel as the command leaves it. -/
  | done (ch : Channel n) (bytes : List Byte)
  /-- `raise st`. -/
  | raised (st : Status)
deriving DecidableEq, Repr

/-- R8, R100: a command runs on the channel its header names; the other channel keeps its state. -/
def onChannel (c : Chan) (cmd : (n : Nat) → Algo n → Channel n → Reply n) (s : State) :
    Host.Outcome State Fault Refusal :=
  match c with
  | .sha1 =>
    match cmd 5 algo1 s.ch0 with
    | .done ch bytes => .next ({ s with ch0 := ch }.respond .ok c.number bytes)
    | .raised st => .next (s.raise st c.number)
  | .sha256 =>
    match cmd 8 algo256 s.ch1 with
    | .done ch bytes => .next ({ s with ch1 := ch }.respond .ok c.number bytes)
    | .raised st => .next (s.raise st c.number)

/-! Room for a response (R205). -/

/-- The phase of the channel a command names. -/
def State.phaseOf (s : State) : Chan → Phase
  | .sha1 => s.ch0.phase
  | .sha256 => s.ch1.phase

/-- R72: the result length in bytes of the response `i` gets in state `s`; 0 for an error. Log 4. -/
def resultBytes (i : Instr) (s : State) : Nat :=
  match i with
  | .init _ => 0
  | .feed _ _ => 0
  | .final c => if (s.phaseOf c).isOpen then digestLength c else 0
  | .digest c _ => digestLength c
  | .dlen _ => 4
  | .status _ => 4

/-- R70: the words of a response with `n` result bytes. -/
def responseWords (n : Nat) : Nat := 1 + wordsFor n

/-- R205: the response port has room for a response with `n` result bytes. -/
def State.fits (s : State) (n : Nat) : Bool := decide (s.rspq.length + responseWords n ≤ Config.rspFifoDepth)

/-! The ports and reset. -/

/-- R22, R61: the engine consumes the head frame; `rest` stands behind it. -/
def State.consume (s : State) (rest : List Word) : State := { s with cmdq := rest }

/-- The schedule moves on (log 6). -/
def State.withTurns (s : State) (ts : List Turn) : State := { s with env := { s.env with turns := ts } }

/-- R32, R44: a host appends one word to the command port. -/
def State.append (s : State) (host : Nat) (w : Word) : State :=
  { s with cmdq := s.cmdq ++ [w], env := { s.env with tailHost := host } }

/-- R44: a host removes the oldest response word, `rest` staying behind: a destructive read. -/
def State.remove (s : State) (w : Word) (rest : List Word) : State :=
  { s with rspq := rest, env := { s.env with received := s.env.received ++ [w] } }

/-- R200, R201, R35: reset. Every piece of the block's state takes its reset value; `H` and `total` are drawn afresh
(log 1). What the hosts hold and what they will do next is outside the block and stays (log 9). -/
def State.resetBlock (s : State) : State where
  ch0 := Channel.afterReset 5 0 (s.env.draws + 1)
  ch1 := Channel.afterReset 8 1 (s.env.draws + 1)
  cmdq := []
  rspq := []
  env := { s.env with draws := s.env.draws + 1 }

end Sys2Proof.Machine
end

