-- ==== Sys2Proof/Machine/OneShot.lean ====
section
/-! DEFINITION. The commands of 43_oneshot_and_query.md that leave every channel as it is: DIGEST, DLEN. -/

namespace Sys2Proof.Machine

/-- R170, R172, R173: DIGEST. The scratch channel is inside `digestWords`; the named channel is not read or written. -/
def digestCommand (data : List Byte) (n : Nat) (A : Algo n) (ch : Channel n) : Reply n :=
  .done ch (serialize (digestWords A data))

/-- R175: DLEN. -/
def dlenCommand (c : Chan) (n : Nat) (_A : Algo n) (ch : Channel n) : Reply n :=
  .done ch (be32 (BitVec.ofNat 32 (digestLength c)))

/-- DIGEST (R170). -/
def execDigest (c : Chan) (data : List Byte) (s : State) : Host.Outcome State Fault Refusal :=
  onChannel c (digestCommand data) s

/-- DLEN (R175). -/
def execDlen (c : Chan) (s : State) : Host.Outcome State Fault Refusal := onChannel c (dlenCommand c) s

end Sys2Proof.Machine
end

