-- ==== Sys2Proof/Machine/Stream.lean ====
section
/-! DEFINITION. The streaming commands of 40_block_buffer.md: INIT, FEED, FINAL, STATUS. -/

namespace Sys2Proof.Machine

/-- R101: INIT, on one channel. -/
def initCommand (n : Nat) (A : Algo n) (_ch : Channel n) : Reply n := .done (Channel.create A) []

/-- R103: FEED, on one channel. -/
def feedCommand (data : List Byte) (n : Nat) (A : Algo n) (ch : Channel n) : Reply n :=
  if ch.phase.isOpen then .done (ch.accept A data) [] else .raised .invalidState

/-- R110: FINAL, on one channel. -/
def finalCommand (n : Nat) (A : Algo n) (ch : Channel n) : Reply n :=
  if ch.phase.isOpen then .done (ch.finish A) (serialize (ch.finish A).H) else .raised .invalidState

/-- R115: STATUS, on one channel. -/
def statusCommand (n : Nat) (_A : Algo n) (ch : Channel n) : Reply n := .done ch (be32 ch.statusWord)

/-- INIT (R101). -/
def execInit (c : Chan) (s : State) : Host.Outcome State Fault Refusal := onChannel c initCommand s

/-- FEED (R103). -/
def execFeed (c : Chan) (data : List Byte) (s : State) : Host.Outcome State Fault Refusal :=
  onChannel c (feedCommand data) s

/-- FINAL (R110). -/
def execFinal (c : Chan) (s : State) : Host.Outcome State Fault Refusal := onChannel c finalCommand s

/-- STATUS (R115). -/
def execStatus (c : Chan) (s : State) : Host.Outcome State Fault Refusal := onChannel c statusCommand s

end Sys2Proof.Machine
end

