-- ==== Sys2Proof/Machine/Dispatch.lean ====
section
/-! DEFINITION. One arm per command of 30_encoding.md R64 (R100's case). -/

namespace Sys2Proof.Machine

def exec (i : Instr) (s : State) : Host.Outcome State Fault Refusal :=
  match i with
  | .init c => Sys2Proof.Machine.execInit c s
  | .feed c data => Sys2Proof.Machine.execFeed c data s
  | .final c => Sys2Proof.Machine.execFinal c s
  | .digest c data => Sys2Proof.Machine.execDigest c data s
  | .dlen c => Sys2Proof.Machine.execDlen c s
  | .status c => Sys2Proof.Machine.execStatus c s

end Sys2Proof.Machine
end

