-- ==== Sys2Proof/Machine/Engine.lean ====
section
/-! DEFINITION. The engine's step: R100's front end with the holds of 70_reset_and_hazards.md R204 and R205. -/

namespace Sys2Proof.Machine

/-- R61, R66, R100: a whole frame with an illegal header: consumed, answered ILLEGAL_COMMAND with the header's CHAN
bits, and nothing else changes. -/
def rejectFrame (h : Word) (rest : List Word) (s : State) : State :=
  (s.consume rest).raise .illegalCommand (chanField h)

/-- R18, R47, R100: the engine takes the head frame, executes its command atomically and answers. It has no step when
there is no header (R202), when data words are missing (R204), or when the whole response does not fit (R205): these
are stuck states (log 3). -/
def engineStep (s : State) : Host.Outcome State Fault Refusal :=
  match decodeFrame s.cmdq with
  | .error .noHeader => .fault .engineIdle
  | .error (.missingWords _) => .fault .incompleteFrame
  | .error (.illegal _ h rest) =>
    if s.fits 0 then .next (rejectFrame h rest s) else .fault .responsePortFull
  | .ok (i, rest) =>
    if s.fits (resultBytes i s) then exec i (s.consume rest) else .fault .responsePortFull

end Sys2Proof.Machine
end

