-- ==== Sys2Proof/Machine/HostPort.lean ====
section
/-! DEFINITION. The agents outside the block: hosts at the two ports (10_state.md R32, 20_memory.md R44, R53,
70_reset_and_hazards.md R205) and reset (R200). -/

namespace Sys2Proof.Machine

/-- R61: how many data words of the last frame are still to come, after one more word: a header opens a frame, any
other word is one data word fewer. -/
def trackWord (missing : Nat) (w : Word) : Nat := if missing = 0 then dataWords w else missing - 1

/-- R61, R53: the data words still missing from the last frame in a command stream that starts with a header. -/
def openWords (ws : List Word) : Nat := ws.foldl trackWord 0

/-- R53: host `host` appends inside a frame that another host has begun. -/
def State.interleaves (s : State) (host : Nat) : Bool := decide (openWords s.cmdq ≠ 0 ∧ host ≠ s.env.tailHost)

/-- The engine's turn in a schedule (R204, R205): where it has no step, it holds and the turn passes. Log 6. -/
def engineTurn (s : State) : Host.Outcome State Fault Refusal :=
  match engineStep s with
  | .next t => .next t
  | .fault _ => .next s
  | .refused r => .refused r

/-- The next event of the outside world, `rest` being what is scheduled after it.
R205: a host that appends to a full port, or removes from an empty one, holds; meanwhile the engine moves and the
host's event stays next (log 7). R53: an append inside another host's frame is refused (log 8). -/
def turnStep (t : Turn) (rest : List Turn) (s : State) : Host.Outcome State Fault Refusal :=
  match t with
  | .push host w =>
    if Config.cmdFifoDepth ≤ s.cmdq.length then engineStep s
    else if s.interleaves host then .refused .interleavedFrame
    else .next ((s.withTurns rest).append host w)
  | .pop =>
    match s.rspq with
    | [] => engineStep s
    | w :: ws => .next ((s.withTurns rest).remove w ws)
  | .engine => engineTurn (s.withTurns rest)
  | .reset => .next (s.withTurns rest).resetBlock

/-- The turns by which host `host` appends the words `ws` one after the other. -/
def pushAll (host : Nat) (ws : List Word) : List Turn := ws.map (Turn.push host)

end Sys2Proof.Machine
end

