-- ==== Sys2Proof/Machine/Step.lean ====
section
/-! DEFINITION. One step of the whole machine: the next scheduled event of the outside world, or, with none scheduled,
the engine's step (log 6). -/

namespace Sys2Proof.Machine

def step (s : State) : Host.Outcome State Fault Refusal :=
  match s.env.turns with
  | [] => engineStep s
  | t :: rest => turnStep t rest s

/-- The state in which the very next step takes the frame of the opcode table's word `w`: the frame stands at the head
of the command port, the response port has been drained, and no outside event is scheduled before the engine. Log 5. -/
def State.withFetchWord (s : State) (nbits w : Nat) : State :=
  { s with cmdq := tableFrame nbits w ++ s.cmdq, rspq := [], env := { s.env with turns := [] } }

end Sys2Proof.Machine
end

