-- ==== Sys2Proof/Machine/Assembler.lean ====
section
/-! DEFINITION. The assembler syntax of 30_encoding.md R69: what a line assembles to, and the pseudo-instructions. -/

namespace Sys2Proof.Machine

/-- R69: the words of a line `<mnemonic> <chan>, <bytes>` with a numeric channel 0 to 15; 2 to 15 give an illegal
header. None is the assembly error of a `<bytes>` longer than 65535. `bytes` is [] for the mnemonics without one. -/
def assemble (op : Opcode) (chan : BitVec 4) (bytes : List Byte) : Option (List Word) :=
  if bytes.length ≤ countMax then some (headerWord op.code chan bytes.length :: packWords bytes) else none

/-- R69: the chunks of a long feed, each of 65535 bytes except the last; one empty chunk for empty bytes. `fuel` bounds
the number of full chunks. -/
def feedChunks : Nat → List Byte → List (List Byte)
  | 0, bytes => [bytes]
  | fuel + 1, bytes =>
    if bytes.length ≤ countMax then [bytes] else bytes.take countMax :: feedChunks fuel (bytes.drop countMax)

/-- R69: `FEEDL <chan>, <bytes>`. -/
def feedLong (c : Chan) (bytes : List Byte) : List Instr := (feedChunks bytes.length bytes).map (Instr.feed c)

/-- R69: `HASH <chan>, <bytes>`. -/
def hashPseudo (c : Chan) (bytes : List Byte) : List Instr := .init c :: feedLong c bytes ++ [.final c]

/-- R69: `SHA1 <bytes>` and `SHA256 <bytes>`: the one-shot command, or the assembly error. -/
def oneShotPseudo (c : Chan) (bytes : List Byte) : Option Instr :=
  if bytes.length ≤ countMax then some (.digest c bytes) else none

end Sys2Proof.Machine
end

