-- ==== Sys2Proof/Safety.lean ====
section
/-! DEFINITION. The terms claims use: the blocks of a message, what a channel holds of a message, the invariant of the
block (10_state.md R29), when a run is safe, when two states cannot be told apart (R36), and runs of several commands. -/

namespace Sys2Proof.Machine

/-! Messages. -/

/-- The consecutive whole 64-byte blocks of a byte list, in order. -/
def fullBlocks (m : List Byte) : List (List Byte) :=
  (List.range (m.length / 64)).map fun j => (m.drop (64 * j)).take 64

/-- R16, R108: a whole message with its padding and its length field. -/
def paddedMessage (m : List Byte) : List Byte := pad m (BitVec.ofNat 64 (8 * m.length))

/-- R16: the hash words of a whole message: the compression step folded over the blocks of the padded message. -/
def messageHash {n : Nat} (A : Algo n) (m : List Byte) : Vector Word n :=
  (fullBlocks (paddedMessage m)).foldl A.compress A.iv

/-! The invariant (R29). -/

/-- R29 (I-c), (I-e): an open channel holds the message `m` accepted since its INIT. -/
def Channel.Holds {n : Nat} (A : Algo n) (ch : Channel n) (m : List Byte) : Prop :=
  ch.total = BitVec.ofNat 64 (8 * m.length) ∧
  ch.pend = m.drop (64 * (m.length / 64)) ∧
  ch.H = (fullBlocks m).foldl A.compress A.iv ∧
  ch.lenwrap = decide (2 ^ 64 ≤ 8 * m.length)

/-- R29, R111: what holds of a channel between commands. -/
def Channel.Inv {n : Nat} (A : Algo n) (ch : Channel n) : Prop :=
  match ch.phase with
  | .none => ch.pend = [] ∧ ch.lenwrap = false
  | .created => ch.Holds A []
  | .updating => ∃ m, ch.Holds A m
  | .finalized =>
    ch.pend = [] ∧
    ∃ m : List Byte, ch.H = messageHash A m ∧ ch.total = BitVec.ofNat 64 (8 * m.length) ∧
      ch.lenwrap = decide (2 ^ 64 ≤ 8 * m.length)

/-- R29, R32: the invariant of the block: both channels, and both ports within their capacity. -/
def State.Inv (s : State) : Prop :=
  s.ch0.Inv algo1 ∧ s.ch1.Inv algo256 ∧
  s.cmdq.length ≤ Config.cmdFifoDepth ∧ s.rspq.length ≤ Config.rspFifoDepth

/-! Safe runs. -/

/-- R204, R205, R210: the engine has a step: the head frame is complete and its whole response fits. -/
def State.EngineReady (s : State) : Prop :=
  ∃ h rest, s.cmdq = h :: rest ∧ dataWords h ≤ rest.length ∧
    match decodeFrame s.cmdq with
    | .ok (i, _) => s.fits (resultBytes i s) = true
    | .error _ => s.fits 0 = true

/-- A step is safe when the model does not refuse the schedule (R53); a state without a step is safe (R204). -/
def SafeStep (s : State) : Prop := ∀ r, step s ≠ .refused r

/-! States that no run tells apart (R36). -/

/-- R29 (I-b), R36: two channels agree in all but the `H` and `total` of a channel in phase NONE. -/
def Channel.Agrees {n : Nat} (a b : Channel n) : Prop :=
  a.phase = b.phase ∧ a.pend = b.pend ∧ a.lenwrap = b.lenwrap ∧
  (a.phase ≠ .none → a.H = b.H ∧ a.total = b.total)

/-- R36: two states agree in all but unspecified values; in particular in all that a host sees. -/
def State.Agrees (s t : State) : Prop :=
  s.ch0.Agrees t.ch0 ∧ s.ch1.Agrees t.ch1 ∧ s.cmdq = t.cmdq ∧ s.rspq = t.rspq ∧ s.env = t.env

/-- R36: two outcomes agree: both stop for the same reason, or both go on in states that agree. -/
def OutcomesAgree (x y : Host.Outcome State Fault Refusal) : Prop :=
  match x, y with
  | .next s, .next t => s.Agrees t
  | .fault r, .fault r' => r = r'
  | .refused r, .refused r' => r = r'
  | _, _ => False

/-! Runs of several commands. -/

/-- R70, R72: the most words the response to a command takes: a header and, for a success, its result. -/
def mostResponseWords : Instr → Nat
  | .init _ => 1
  | .feed _ _ => 1
  | .final c => 1 + digestLength c / 4
  | .digest c _ => 1 + digestLength c / 4
  | .dlen _ => 2
  | .status _ => 2

/-- R47: commands executed one after the other, each seeing every effect of the earlier ones. -/
def execAll : List Instr → State → Host.Outcome State Fault Refusal
  | [], s => .next s
  | i :: is, s =>
    match exec i s with
    | .next t => execAll is t
    | .fault r => .fault r
    | .refused r => .refused r

end Sys2Proof.Machine
end

