-- ==== Sys2Proof/Certificates/Slice0/Obligations.lean ====
section
/-! DEFINITION. The statements about the model, each from a numbered rule of spec/ or derived from some. Nothing is
proved here. Words are written as in the spec's own tables; `ceil(n / 4)` is `(n + 3) / 4`. -/

open Sys2Proof Sys2Proof.Machine

/-! Encoding and decoding. -/

/-- R61 to R63, R69: the frame of every well-formed command, whatever stands behind it, decodes to that command. -/
def Obligations.DecodeEncodeRoundTrip : Prop :=
  ∀ (i : Instr) (rest : List Word), i.wf = true → decodeFrame (encode i ++ rest) = .ok (i, rest)

/-- R61, R62: what decodes as a command is a whole frame: a legal header and exactly its data words; the command is
well-formed and its own encoding has that header and that length. -/
def Obligations.DecodedFramesAreWholeAndWellFormed : Prop :=
  ∀ (ws rest : List Word) (i : Instr), decodeFrame ws = .ok (i, rest) →
    i.wf = true ∧
    ∃ (h : Word) (data : List Word), ws = h :: data ++ rest ∧ data.length = (h.toNat % 2 ^ 16 + 3) / 4 ∧
      legalHeader h = true ∧ (encode i).head? = some h ∧ (encode i).length = 1 + data.length

/-- R74: the six match and mask pairs. A header matches the row of an operation exactly when it decodes to that
operation on the channel its bit 20 gives; a header that matches no row is illegal; no header matches two rows. -/
def Obligations.HeadersDecodeByTheMaskTable : Prop :=
  opcodeTable.map (fun r => (r.opcode, r.pattern, r.mask)) =
    [(.init, 0x01000000, 0xFFEFFFFF), (.feed, 0x02000000, 0xFFEF0000), (.final, 0x03000000, 0xFFEFFFFF),
     (.digest, 0x04000000, 0xFFEF0000), (.dlen, 0x05000000, 0xFFEFFFFF), (.status, 0x06000000, 0xFFEFFFFF)] ∧
  ∀ h : Word,
    (∀ r ∈ opcodeTable, h &&& r.mask = r.pattern ↔
      decodeHeader h = .ok (r.opcode, if h.getLsbD 20 then .sha256 else .sha1)) ∧
    (legalHeader h = false ↔ ∀ r ∈ opcodeTable, h &&& r.mask ≠ r.pattern) ∧
    (∀ r ∈ opcodeTable, ∀ r' ∈ opcodeTable, h &&& r.mask = r.pattern → h &&& r'.mask = r'.pattern → r = r')

/-- R73: the header words worked out in the spec. -/
def Obligations.HeaderWordsWorkedInTheSpec : Prop :=
  decodeFrame [0x01000000] = .ok (.init .sha1, []) ∧
  decodeFrame [0x01100000] = .ok (.init .sha256, []) ∧
  decodeFrame [0x02000003, 0x61626300] = .ok (.feed .sha1 [0x61, 0x62, 0x63], []) ∧
  (∀ b : Byte, decodeFrame (0x02100040 :: List.replicate 16 (be32dec b b b b)) =
    .ok (.feed .sha256 (List.replicate 64 b), [])) ∧
  decodeFrame [0x03000000] = .ok (.final .sha1, []) ∧
  decodeFrame [0x03100000] = .ok (.final .sha256, []) ∧
  decodeFrame [0x04100003, 0x61626300] = .ok (.digest .sha256 [0x61, 0x62, 0x63], []) ∧
  decodeFrame [0x05000000] = .ok (.dlen .sha1, []) ∧
  decodeFrame [0x05100000] = .ok (.dlen .sha256, []) ∧
  decodeFrame [0x06100000] = .ok (.status .sha256, []) ∧
  decodeHeader 0x00000000 = .error .opcode ∧
  decodeHeader 0x07000000 = .error .opcode ∧
  decodeHeader 0x01010000 = .error .reservedField ∧
  decodeHeader 0x01200000 = .error .channel ∧
  decodeHeader 0x03000001 = .error .count ∧ frameLen 0x03000001 = 2

/-- R63: payload byte `4j + k` is bits `31-8k` to `24-8k` of data word `j`, there are COUNT of them, and the unused
lanes of the last data word change nothing. -/
def Obligations.PayloadBytesAndUnusedLanes : Prop :=
  (∀ (count : Nat) (ws : List Word), ws.length = (count + 3) / 4 →
    (payload count ws).length = count ∧
    ∀ j k, k < 4 → 4 * j + k < count →
      (payload count ws).getD (4 * j + k) 0 = (ws.getD j 0).extractLsb' (24 - 8 * k) 8) ∧
  (∀ (h x y : Word) (ws rest : List Word), ws.length + 1 = (h.toNat % 2 ^ 16 + 3) / 4 →
    x >>> (8 * (4 * (ws.length + 1) - h.toNat % 2 ^ 16)) = y >>> (8 * (4 * (ws.length + 1) - h.toNat % 2 ^ 16)) →
    decodeFrame (h :: ws ++ x :: rest) = decodeFrame (h :: ws ++ y :: rest))

/-! The engine's step. -/

/-- R22, R47, R100: with no outside event scheduled, or with the engine's turn next, a step whose head frame decodes
and whose response fits is the command's execution behind the frame. -/
def Obligations.StepRunsTheDecodedCommand : Prop :=
  ∀ (s : State) (i : Instr) (rest : List Word), decodeFrame s.cmdq = .ok (i, rest) →
    s.rspq.length + 1 + (resultBytes i s + 3) / 4 ≤ Config.rspFifoDepth →
    (s.env.turns = [] → step s = exec i { s with cmdq := rest }) ∧
    (∀ ts, s.env.turns = .engine :: ts →
      step s = exec i { s with cmdq := rest, env := { s.env with turns := ts } })

/-- R66: what makes a header illegal, which is that it matches no row of R74, and what an illegal frame does: it is
consumed whole, the response is ILLEGAL_COMMAND with the header's CHAN bits, and nothing else changes; the same in a
turn the schedule gives the engine, but that the turn is taken. -/
def Obligations.IllegalFramesAreConsumedAndAnswered : Prop :=
  (∀ h : Word, legalHeader h = false ↔
    (h.toNat / 2 ^ 24 ∉ [1, 2, 3, 4, 5, 6] ∨ h.toNat / 2 ^ 16 % 16 ≠ 0 ∨ h.toNat / 2 ^ 20 % 16 > 1 ∨
      (h.toNat / 2 ^ 24 ∈ [1, 3, 5, 6] ∧ h.toNat % 2 ^ 16 ≠ 0))) ∧
  (∀ h : Word, legalHeader h = true ↔ ∃ r ∈ opcodeTable, h &&& r.mask = r.pattern) ∧
  (∀ (s : State) (h : Word) (data rest : List Word), s.cmdq = h :: data ++ rest →
    data.length = (h.toNat % 2 ^ 16 + 3) / 4 → legalHeader h = false →
    s.rspq.length + 1 ≤ Config.rspFifoDepth →
    (s.env.turns = [] → step s = .next { s with
      cmdq := rest
      rspq := s.rspq ++ [BitVec.ofNat 32 (3 * 2 ^ 24 + h.toNat / 2 ^ 20 % 16 * 2 ^ 20)] }) ∧
    (∀ ts, s.env.turns = .engine :: ts → step s = .next { s with
      cmdq := rest
      rspq := s.rspq ++ [BitVec.ofNat 32 (3 * 2 ^ 24 + h.toNat / 2 ^ 20 % 16 * 2 ^ 20)]
      env := { s.env with turns := ts } }))

/-- R196, R202, R204: without a whole frame, or any word, the engine has no step: a stuck state when nothing else is
scheduled (the fault's name is the model's, log 3), and a turn that changes nothing of the block when the engine is
given one. -/
def Obligations.EngineHoldsOnIncompleteFrame : Prop :=
  (∀ s : State, s.cmdq = [] →
    (s.env.turns = [] → step s = .fault .engineIdle) ∧
    (∀ ts, s.env.turns = .engine :: ts → step s = .next { s with env := { s.env with turns := ts } })) ∧
  (∀ (s : State) (h : Word) (tail : List Word), s.cmdq = h :: tail → tail.length < (h.toNat % 2 ^ 16 + 3) / 4 →
    (s.env.turns = [] → step s = .fault .incompleteFrame) ∧
    (∀ ts, s.env.turns = .engine :: ts → step s = .next { s with env := { s.env with turns := ts } }))

/-- R205: back-pressure. The engine starts a frame only when its whole response fits: without that room it has no
step, and a turn given to it passes and changes nothing of the block. A response is at most 9 words, so an empty
response port always has room. A host holds at a full command port and at an empty response port: only the engine can
then move, the host's turn stays next, its word is not appended and it gets no word. The names of the stuck states,
the turn that passes and what moves meanwhile are the model's (log 3, 6, 7). -/
def Obligations.BackPressureHolds : Prop :=
  (∀ (s : State) (i : Instr) (rest : List Word), decodeFrame s.cmdq = .ok (i, rest) →
    Config.rspFifoDepth < s.rspq.length + 1 + (resultBytes i s + 3) / 4 →
    (s.env.turns = [] → step s = .fault .responsePortFull) ∧
    (∀ ts, s.env.turns = .engine :: ts → step s = .next { s with env := { s.env with turns := ts } })) ∧
  (∀ (s : State) (cause : IllegalCause) (h : Word) (rest : List Word),
    decodeFrame s.cmdq = .error (.illegal cause h rest) → Config.rspFifoDepth < s.rspq.length + 1 →
    (s.env.turns = [] → step s = .fault .responsePortFull) ∧
    (∀ ts, s.env.turns = .engine :: ts → step s = .next { s with env := { s.env with turns := ts } })) ∧
  (∀ (s : State) (i : Instr), 1 + (resultBytes i s + 3) / 4 ≤ 9 ∧ 9 ≤ Config.rspFifoDepth ∧ 1 ≤ Config.cmdFifoDepth) ∧
  (∀ (s : State) (host : Nat) (w : Word) (ts : List Turn), s.env.turns = .push host w :: ts →
    Config.cmdFifoDepth ≤ s.cmdq.length →
    step s = engineStep s ∧
    ∀ t, step s = .next t → t.env = s.env ∧ ∃ frame, frame ≠ [] ∧ s.cmdq = frame ++ t.cmdq) ∧
  (∀ (s : State) (ts : List Turn), s.env.turns = .pop :: ts → s.rspq = [] →
    step s = engineStep s ∧
    ∀ t, step s = .next t → t.env = s.env ∧ t.rspq ≠ [])

/-- R70: a step in which the response port grows consumes one whole command frame and appends one response frame: a
header with a status of R71 that is not BUFFER_TOO_LARGE, the command header's CHAN bits, reserved bits 0, RCOUNT one
of 0, 4, 20 and 32, and `ceil(RCOUNT / 4)` data words. The port grows in every step of the engine with nothing
scheduled, and in every turn given to the engine but one in which it holds (log 6). -/
def Obligations.OneResponseFramePerCommandFrame : Prop :=
  (∀ s t : State, step s = .next t → s.rspq.length < t.rspq.length →
    ∃ (h : Word) (data rest : List Word) (rh : Word) (rd : List Word),
      s.cmdq = h :: data ++ rest ∧ data.length = (h.toNat % 2 ^ 16 + 3) / 4 ∧ t.cmdq = rest ∧
      t.rspq = s.rspq ++ rh :: rd ∧ rd.length = (rh.toNat % 2 ^ 16 + 3) / 4 ∧
      rh.toNat % 2 ^ 16 ∈ [0, 4, 20, 32] ∧ rh.toNat / 2 ^ 16 % 16 = 0 ∧
      rh.toNat / 2 ^ 20 % 16 = h.toNat / 2 ^ 20 % 16 ∧ rh.toNat / 2 ^ 24 ∈ [0, 1, 3]) ∧
  (∀ s t : State, s.env.turns = [] → step s = .next t → s.rspq.length < t.rspq.length) ∧
  (∀ (s t : State) (ts : List Turn), s.env.turns = .engine :: ts → step s = .next t →
    t = { s with env := { s.env with turns := ts } } ∨ s.rspq.length < t.rspq.length)

/-- R72: the result length of every response: by the table when the status is OK, 0 otherwise. The room the engine
asks for before it starts a command (R205) is exactly the length of the response. -/
def Obligations.ResponseLengthsOfTheTable : Prop :=
  ∀ (i : Instr) (s : State), ∃ (t : State) (rh : Word) (rd : List Word),
    exec i s = .next t ∧ t.rspq = s.rspq ++ rh :: rd ∧ rh.toNat % 2 ^ 16 = resultBytes i s ∧
    rd.length = (resultBytes i s + 3) / 4 ∧
    (rh.toNat / 2 ^ 24 ≠ 0 → rh.toNat % 2 ^ 16 = 0) ∧
    (rh.toNat / 2 ^ 24 = 0 → rh.toNat % 2 ^ 16 =
      match i with
      | .init _ => 0
      | .feed _ _ => 0
      | .final .sha1 => 20
      | .final .sha256 => 32
      | .digest .sha1 _ => 20
      | .digest .sha256 _ => 32
      | .dlen _ => 4
      | .status _ => 4)

/-- R47: the engine runs a stream of frames in order, each command seeing every effect of the earlier ones and of no
later one: with nothing else scheduled (log 6), as many steps as there are frames are the commands executed one after
the other on the state behind them. -/
def Obligations.EngineRunsTheCommandStreamInOrder : Prop :=
  ∀ (is : List Instr) (rest : List Word) (s : State), s.env.turns = [] → (∀ i ∈ is, i.wf = true) →
    s.cmdq = is.flatMap encode ++ rest →
    s.rspq.length + (is.map mostResponseWords).sum ≤ Config.rspFifoDepth →
    Sys2Proof.core.run is.length s = execAll is { s with cmdq := rest }

/-- R210, R204, R205: an engine whose head frame is complete and whose response fits has a step. -/
def Obligations.ReadyEngineHasAStep : Prop :=
  ∀ s : State, s.env.turns = [] → s.EngineReady → ∃ t, step s = .next t

/-- The table word that the host of this model places runs at the very next step (the model's own, log 5). -/
def Obligations.PlacedTableWordRunsNext : Prop :=
  ∀ (s : State) (nbits w : Nat) (i : Instr), decodeTableWord nbits w = some i →
    step (s.withFetchWord nbits w) =
      exec i { s with rspq := [], env := { s.env with turns := [] } }

/-! INIT. -/

/-- R101, R130, R150: the frame of INIT; INIT creates a new instance in every phase and answers OK; the other channel,
the command port and the outside world keep their state. -/
def Obligations.InitCreatesANewInstance : Prop :=
  (∀ rest : List Word, decodeFrame (0x01000000 :: rest) = .ok (.init .sha1, rest) ∧
    decodeFrame (0x01100000 :: rest) = .ok (.init .sha256, rest)) ∧
  (∀ s : State, exec (.init .sha1) s = .next { s with
    ch0 := { phase := .created, H := #v[0x67452301, 0xEFCDAB89, 0x98BADCFE, 0x10325476, 0xC3D2E1F0],
             pend := [], total := 0, lenwrap := false }
    rspq := s.rspq ++ [0x00000000] }) ∧
  (∀ s : State, exec (.init .sha256) s = .next { s with
    ch1 := { phase := .created,
             H := #v[0x6A09E667, 0xBB67AE85, 0x3C6EF372, 0xA54FF53A, 0x510E527F, 0x9B05688C, 0x1F83D9AB, 0x5BE0CD19],
             pend := [], total := 0, lenwrap := false }
    rspq := s.rspq ++ [0x00100000] })

/-! FEED. -/

/-- R103: the frame of FEED; FEED on an open channel absorbs its payload, adds its bits to the length and answers OK;
in NONE and FINALIZED it answers INVALID_STATE and changes nothing. -/
def Obligations.FeedAbsorbsOnAnOpenChannel : Prop :=
  (∀ (n : Nat) (ws rest : List Word), n ≤ 65535 → ws.length = (n + 3) / 4 →
    decodeFrame (BitVec.ofNat 32 (0x02000000 + n) :: ws ++ rest) = .ok (.feed .sha1 (payload n ws), rest) ∧
    decodeFrame (BitVec.ofNat 32 (0x02100000 + n) :: ws ++ rest) = .ok (.feed .sha256 (payload n ws), rest)) ∧
  (∀ (s : State) (data : List Byte), s.ch0.phase = .created ∨ s.ch0.phase = .updating →
    exec (.feed .sha1 data) s = .next { s with
      ch0 := { phase := .updating
               H := (absorb algo1 s.ch0.H s.ch0.pend data).1
               pend := (absorb algo1 s.ch0.H s.ch0.pend data).2
               total := BitVec.ofNat 64 (s.ch0.total.toNat + 8 * data.length)
               lenwrap := s.ch0.lenwrap || decide (2 ^ 64 ≤ s.ch0.total.toNat + 8 * data.length) }
      rspq := s.rspq ++ [0x00000000] }) ∧
  (∀ (s : State) (data : List Byte), s.ch1.phase = .created ∨ s.ch1.phase = .updating →
    exec (.feed .sha256 data) s = .next { s with
      ch1 := { phase := .updating
               H := (absorb algo256 s.ch1.H s.ch1.pend data).1
               pend := (absorb algo256 s.ch1.H s.ch1.pend data).2
               total := BitVec.ofNat 64 (s.ch1.total.toNat + 8 * data.length)
               lenwrap := s.ch1.lenwrap || decide (2 ^ 64 ≤ s.ch1.total.toNat + 8 * data.length) }
      rspq := s.rspq ++ [0x00100000] }) ∧
  (∀ (s : State) (data : List Byte), s.ch0.phase = .none ∨ s.ch0.phase = .finalized →
    exec (.feed .sha1 data) s = .next { s with rspq := s.rspq ++ [0x01000000] }) ∧
  (∀ (s : State) (data : List Byte), s.ch1.phase = .none ∨ s.ch1.phase = .finalized →
    exec (.feed .sha256 data) s = .next { s with rspq := s.rspq ++ [0x01100000] })

/-- R102, R105: absorbing compresses the whole 64-byte blocks of the pending bytes followed by the data, in order and
each once, `floor((|pend| + |data|) / 64)` of them, and leaves the rest pending, fewer than 64 bytes. -/
def Obligations.AbsorbCompressesWholeBlocksInOrder : Prop :=
  ∀ pend data : List Byte, ∃ blocks : List (List Byte),
    blocks.length = (pend.length + data.length) / 64 ∧ (∀ b ∈ blocks, b.length = 64) ∧
    ∀ (n : Nat) (A : Algo n) (H : Vector Word n),
      (absorb A H pend data).1 = blocks.foldl A.compress H ∧
      blocks.flatten ++ (absorb A H pend data).2 = pend ++ data ∧
      (absorb A H pend data).2.length = (pend.length + data.length) % 64

/-- R106: a successful FEED adds `8n` to the length modulo 2^64, whether or not it compresses, and a carry sets the
sticky wrap flag; with `total = 2^64 - 16` a FEED of 3 bytes leaves 8 and the flag set. -/
def Obligations.LengthCounterWrapsVisibly : Prop :=
  (∀ (s : State) (data : List Byte), s.ch0.phase = .created ∨ s.ch0.phase = .updating →
    ∃ t, exec (.feed .sha1 data) s = .next t ∧
      t.ch0.total.toNat = (s.ch0.total.toNat + 8 * data.length) % 2 ^ 64 ∧
      (t.ch0.lenwrap = true ↔ s.ch0.lenwrap = true ∨ 2 ^ 64 ≤ s.ch0.total.toNat + 8 * data.length) ∧
      (s.ch0.total.toNat = 2 ^ 64 - 16 → data.length = 3 → t.ch0.total = 8 ∧ t.ch0.lenwrap = true)) ∧
  (∀ (s : State) (data : List Byte), s.ch1.phase = .created ∨ s.ch1.phase = .updating →
    ∃ t, exec (.feed .sha256 data) s = .next t ∧
      t.ch1.total.toNat = (s.ch1.total.toNat + 8 * data.length) % 2 ^ 64 ∧
      (t.ch1.lenwrap = true ↔ s.ch1.lenwrap = true ∨ 2 ^ 64 ≤ s.ch1.total.toNat + 8 * data.length) ∧
      (s.ch1.total.toNat = 2 ^ 64 - 16 → data.length = 3 → t.ch1.total = 8 ∧ t.ch1.lenwrap = true))

/-- R107: the streaming law. On an open channel, feeding the parts of a payload one after the other leaves the channel
as the single feed of the whole does; the other channel keeps its state. -/
def Obligations.FeedingInPartsIsFeedingOnce : Prop :=
  (∀ (s : State) (parts : List (List Byte)), s.ch0.phase = .created ∨ s.ch0.phase = .updating → parts ≠ [] →
    ∃ t u, execAll (parts.map (Instr.feed .sha1)) s = .next t ∧ exec (.feed .sha1 parts.flatten) s = .next u ∧
      t.ch0 = u.ch0 ∧ t.ch1 = u.ch1) ∧
  (∀ (s : State) (parts : List (List Byte)), s.ch1.phase = .created ∨ s.ch1.phase = .updating → parts ≠ [] →
    ∃ t u, execAll (parts.map (Instr.feed .sha256)) s = .next t ∧ exec (.feed .sha256 parts.flatten) s = .next u ∧
      t.ch0 = u.ch0 ∧ t.ch1 = u.ch1)

/-- R69: the pseudo-instruction FEEDL expands to FEEDs that a frame can carry, all of 65535 bytes but the last, and
leaves the channel as one feed of all the bytes does. -/
def Obligations.LongFeedIsOneFeed : Prop :=
  ∀ (c : Chan) (bytes : List Byte),
    (∀ i ∈ feedLong c bytes, i.wf = true) ∧
    (∀ i ∈ (feedLong c bytes).dropLast, i.data.length = 65535) ∧
    ((feedLong c bytes).map Instr.data).flatten = bytes ∧
    ∀ s : State, (s.phaseOf c = .created ∨ s.phaseOf c = .updating) →
      ∃ t u, execAll (feedLong c bytes) s = .next t ∧ exec (.feed c bytes) s = .next u ∧
        t.ch0 = u.ch0 ∧ t.ch1 = u.ch1

/-- R69, and R101, R103, R108, R110 and R112 for HASH: a line assembles to the frame of its command, or to none when
its bytes are too many for COUNT; a channel numeral above 1 assembles to an illegal header; SHA1 and SHA256 are the
one-shot command; HASH answers the hash of the message and leaves the channel FINALIZED. -/
def Obligations.AssemblerLinesAndPseudoInstructions : Prop :=
  (∀ (op : Opcode) (chan : BitVec 4) (bytes : List Byte), assemble op chan bytes = none ↔ 65535 < bytes.length) ∧
  (∀ i : Instr, i.wf = true → assemble i.opcode i.chan.number i.data = some (encode i)) ∧
  (∀ (op : Opcode) (chan : BitVec 4) (bytes : List Byte) (h : Word) (ws : List Word), 2 ≤ chan.toNat →
    assemble op chan bytes = some (h :: ws) → legalHeader h = false ∧ ws.length = dataWords h) ∧
  (∀ (c : Chan) (bytes : List Byte),
    oneShotPseudo c bytes = if bytes.length ≤ 65535 then some (.digest c bytes) else none) ∧
  (∀ (bytes : List Byte) (s : State), ∃ t f, execAll (hashPseudo .sha1 bytes) s = .next t ∧
    t.rspq = s.rspq ++ f ++ 0x00000014 :: (messageHash algo1 bytes).toList ∧ t.ch0.phase = .finalized) ∧
  (∀ (bytes : List Byte) (s : State), ∃ t f, execAll (hashPseudo .sha256 bytes) s = .next t ∧
    t.rspq = s.rspq ++ f ++ 0x00100020 :: (messageHash algo256 bytes).toList ∧ t.ch1.phase = .finalized)

/-! FINAL. -/

/-- R108, R109: the padded tail: the pending bytes, `0x80`, `k` zero bytes and the big-endian length; 64 bytes when at
most 55 bytes are pending and 128 otherwise; so a message of `L` bytes has `L / 64 + 1` or `L / 64 + 2` blocks. -/
def Obligations.PaddedTailSizes : Prop :=
  (∀ (pend : List Byte) (total : Word64), pend.length ≤ 55 →
    pad pend total = pend ++ [0x80] ++ List.replicate (55 - pend.length) 0 ++ be64 total ∧
    (pad pend total).length = 64) ∧
  (∀ (pend : List Byte) (total : Word64), 56 ≤ pend.length → pend.length ≤ 63 →
    pad pend total = pend ++ [0x80] ++ List.replicate (119 - pend.length) 0 ++ be64 total ∧
    (pad pend total).length = 128) ∧
  (∀ total : Word64, (be64 total).length = 8 ∧
    ∀ k, k < 8 → ((be64 total).getD k 0).toNat = total.toNat / 2 ^ (56 - 8 * k) % 256) ∧
  (∀ m : List Byte, (paddedMessage m).length =
    64 * (if m.length % 64 ≤ 55 then m.length / 64 + 1 else m.length / 64 + 2))

/-- R110, R111: the frame of FINAL; FINAL on an open channel compresses the padded tail, keeps `total` and `lenwrap`,
finalizes, and answers the hash words as its data words; in NONE and FINALIZED it answers INVALID_STATE and changes
nothing. -/
def Obligations.FinalPadsAndAnswersTheDigest : Prop :=
  (∀ rest : List Word, decodeFrame (0x03000000 :: rest) = .ok (.final .sha1, rest) ∧
    decodeFrame (0x03100000 :: rest) = .ok (.final .sha256, rest)) ∧
  (∀ s : State, s.ch0.phase = .created ∨ s.ch0.phase = .updating →
    exec (.final .sha1) s = .next { s with
      ch0 := { phase := .finalized
               H := compressBlocks algo1 s.ch0.H (pad s.ch0.pend s.ch0.total)
               pend := [], total := s.ch0.total, lenwrap := s.ch0.lenwrap }
      rspq := s.rspq ++ 0x00000014 :: (compressBlocks algo1 s.ch0.H (pad s.ch0.pend s.ch0.total)).toList }) ∧
  (∀ s : State, s.ch1.phase = .created ∨ s.ch1.phase = .updating →
    exec (.final .sha256) s = .next { s with
      ch1 := { phase := .finalized
               H := compressBlocks algo256 s.ch1.H (pad s.ch1.pend s.ch1.total)
               pend := [], total := s.ch1.total, lenwrap := s.ch1.lenwrap }
      rspq := s.rspq ++ 0x00100020 :: (compressBlocks algo256 s.ch1.H (pad s.ch1.pend s.ch1.total)).toList }) ∧
  (∀ s : State, s.ch0.phase = .none ∨ s.ch0.phase = .finalized →
    exec (.final .sha1) s = .next { s with rspq := s.rspq ++ [0x01000000] }) ∧
  (∀ s : State, s.ch1.phase = .none ∨ s.ch1.phase = .finalized →
    exec (.final .sha256) s = .next { s with rspq := s.rspq ++ [0x01100000] })

/-- R16, R108, R110: INIT, any FEEDs and FINAL answer the hash of the whole message: the compression step folded over
the blocks of the message followed by `0x80`, zeros and its 64-bit length. -/
def Obligations.StreamedDigestIsTheMessageHash : Prop :=
  (∀ (s : State) (parts : List (List Byte)), ∃ t f,
    execAll (.init .sha1 :: parts.map (Instr.feed .sha1) ++ [.final .sha1]) s = .next t ∧
    t.rspq = s.rspq ++ f ++ 0x00000014 :: (messageHash algo1 parts.flatten).toList ∧
    t.ch0.phase = .finalized ∧ t.ch0.H = messageHash algo1 parts.flatten ∧ t.ch1 = s.ch1) ∧
  (∀ (s : State) (parts : List (List Byte)), ∃ t f,
    execAll (.init .sha256 :: parts.map (Instr.feed .sha256) ++ [.final .sha256]) s = .next t ∧
    t.rspq = s.rspq ++ f ++ 0x00100020 :: (messageHash algo256 parts.flatten).toList ∧
    t.ch1.phase = .finalized ∧ t.ch1.H = messageHash algo256 parts.flatten ∧ t.ch0 = s.ch0)

/-- R114: FINALIZED is terminal. On a finalized channel FEED and FINAL answer INVALID_STATE, DIGEST, DLEN and STATUS
answer OK, all five leave the channel as it is. A step that changes it ran the INIT at the head of the command port,
and the channel is that new instance, or it was a reset, and the channel is in phase NONE. -/
def Obligations.FinalizedIsTerminal : Prop :=
  (∀ (i : Instr) (s : State), s.phaseOf i.chan = .finalized → i.opcode ≠ .init →
    ∃ (t : State) (rh : Word) (rd : List Word),
      exec i s = .next t ∧ t.ch0 = s.ch0 ∧ t.ch1 = s.ch1 ∧ t.rspq = s.rspq ++ rh :: rd ∧
      rh.toNat / 2 ^ 24 = if i.opcode = .feed ∨ i.opcode = .final then 1 else 0) ∧
  (∀ s t : State, step s = .next t → s.ch0.phase = .finalized → t.ch0 ≠ s.ch0 →
    (∃ rest, decodeFrame s.cmdq = .ok (.init .sha1, rest) ∧ t.cmdq = rest ∧ t.rspq = s.rspq ++ [0x00000000] ∧
      t.ch0 = { phase := .created, H := iv1, pend := [], total := 0, lenwrap := false }) ∨
    (s.env.turns.head? = some .reset ∧ t.ch0.phase = .none)) ∧
  (∀ s t : State, step s = .next t → s.ch1.phase = .finalized → t.ch1 ≠ s.ch1 →
    (∃ rest, decodeFrame s.cmdq = .ok (.init .sha256, rest) ∧ t.cmdq = rest ∧ t.rspq = s.rspq ++ [0x00100000] ∧
      t.ch1 = { phase := .created, H := iv256, pend := [], total := 0, lenwrap := false }) ∨
    (s.env.turns.head? = some .reset ∧ t.ch1.phase = .none))

/-! STATUS, DLEN, DIGEST. -/

/-- R30, R115: the frame of STATUS; STATUS answers the STATUS word and changes nothing but the response port; with at
most 63 bytes pending the word is PHASE in bits 1 to 0, LENWRAP in bit 2, PENDLEN in bits 13 to 8, and 0 elsewhere. -/
def Obligations.StatusAnswersTheStatusWord : Prop :=
  (∀ rest : List Word, decodeFrame (0x06000000 :: rest) = .ok (.status .sha1, rest) ∧
    decodeFrame (0x06100000 :: rest) = .ok (.status .sha256, rest)) ∧
  (∀ s : State, exec (.status .sha1) s = .next { s with rspq := s.rspq ++ [0x00000004, s.ch0.statusWord] }) ∧
  (∀ s : State, exec (.status .sha256) s = .next { s with rspq := s.rspq ++ [0x00100004, s.ch1.statusWord] }) ∧
  (∀ (n : Nat) (ch : Channel n),
    ch.statusWord = ch.phase.code.setWidth 32 ||| (BitVec.ofBool ch.lenwrap).setWidth 32 <<< 2 |||
      BitVec.ofNat 32 ch.pend.length <<< 8) ∧
  (∀ (n : Nat) (ch : Channel n), ch.pend.length ≤ 63 →
    ch.statusWord.toNat =
      (match ch.phase with
        | .none => 0
        | .created => 1
        | .updating => 2
        | .finalized => 3) +
      (if ch.lenwrap then 4 else 0) + 256 * ch.pend.length)

/-- R174, R175: the frame of DLEN; DLEN answers 20 or 32, in every phase, and changes nothing but the response port.
-/
def Obligations.DlenAnswersTheDigestLength : Prop :=
  (∀ rest : List Word, decodeFrame (0x05000000 :: rest) = .ok (.dlen .sha1, rest) ∧
    decodeFrame (0x05100000 :: rest) = .ok (.dlen .sha256, rest)) ∧
  (∀ s : State, exec (.dlen .sha1) s = .next { s with rspq := s.rspq ++ [0x00000004, 0x00000014] }) ∧
  (∀ s : State, exec (.dlen .sha256) s = .next { s with rspq := s.rspq ++ [0x00100004, 0x00000020] })

/-- R170, R173: the frame of DIGEST; DIGEST answers, in every phase, the hash words of its payload on a scratch
channel that starts at the initial value, and changes nothing but the response port. -/
def Obligations.DigestAnswersAndChangesNothing : Prop :=
  (∀ (n : Nat) (ws rest : List Word), n ≤ 65535 → ws.length = (n + 3) / 4 →
    decodeFrame (BitVec.ofNat 32 (0x04000000 + n) :: ws ++ rest) = .ok (.digest .sha1 (payload n ws), rest) ∧
    decodeFrame (BitVec.ofNat 32 (0x04100000 + n) :: ws ++ rest) = .ok (.digest .sha256 (payload n ws), rest)) ∧
  (∀ (s : State) (data : List Byte), exec (.digest .sha1 data) s = .next { s with
    rspq := s.rspq ++ 0x00000014 ::
      (compressBlocks algo1 (absorb algo1 iv1 [] data).1
        (pad (absorb algo1 iv1 [] data).2 (BitVec.ofNat 64 (8 * data.length)))).toList }) ∧
  (∀ (s : State) (data : List Byte), exec (.digest .sha256 data) s = .next { s with
    rspq := s.rspq ++ 0x00100020 ::
      (compressBlocks algo256 (absorb algo256 iv256 [] data).1
        (pad (absorb algo256 iv256 [] data).2 (BitVec.ofNat 64 (8 * data.length)))).toList })

/-- R171: DIGEST answers what FINAL answers after INIT and the FEEDs of any split of the same bytes. -/
def Obligations.DigestEqualsInitFeedFinal : Prop :=
  ∀ (c : Chan) (s : State) (parts : List (List Byte)), ∃ (t u v : State) (frame : List Word),
    execAll (.init c :: parts.map (Instr.feed c)) s = .next t ∧
    exec (.final c) t = .next u ∧ u.rspq = t.rspq ++ frame ∧
    exec (.digest c parts.flatten) s = .next v ∧ v.rspq = s.rspq ++ frame ∧
    v.ch0 = s.ch0 ∧ v.ch1 = s.ch1

/-- R113, R170: the empty message, with or without a FEED of no bytes, and by DIGEST: the compression step on the one
block `80 00 … 00` from the initial value. -/
def Obligations.EmptyMessageIsOnePaddingBlock : Prop :=
  (∀ s : State, ∃ t u v f g,
    execAll [.init .sha1, .final .sha1] s = .next t ∧
    execAll [.init .sha1, .feed .sha1 [], .final .sha1] s = .next u ∧ exec (.digest .sha1 []) s = .next v ∧
    t.rspq = s.rspq ++ f ++ 0x00000014 :: (compress1 iv1 (0x80 :: List.replicate 63 0)).toList ∧
    u.rspq = s.rspq ++ g ++ 0x00000014 :: (compress1 iv1 (0x80 :: List.replicate 63 0)).toList ∧
    v.rspq = s.rspq ++ 0x00000014 :: (compress1 iv1 (0x80 :: List.replicate 63 0)).toList) ∧
  (∀ s : State, ∃ t u v f g,
    execAll [.init .sha256, .final .sha256] s = .next t ∧
    execAll [.init .sha256, .feed .sha256 [], .final .sha256] s = .next u ∧ exec (.digest .sha256 []) s = .next v ∧
    t.rspq = s.rspq ++ f ++ 0x00100020 :: (compress256 iv256 (0x80 :: List.replicate 63 0)).toList ∧
    u.rspq = s.rspq ++ g ++ 0x00100020 :: (compress256 iv256 (0x80 :: List.replicate 63 0)).toList ∧
    v.rspq = s.rspq ++ 0x00100020 :: (compress256 iv256 (0x80 :: List.replicate 63 0)).toList)

/-- R176: every successful FINAL or DIGEST answers exactly 20 bytes on channel 0 and 32 on channel 1; `Serialize`
emits `4 * N` bytes. -/
def Obligations.DigestLengthIsConstant : Prop :=
  (∀ (i : Instr) (s t : State) (rh : Word) (rd : List Word), i.opcode = .final ∨ i.opcode = .digest →
    exec i s = .next t → t.rspq = s.rspq ++ rh :: rd → rh.toNat / 2 ^ 24 = 0 →
    rh.toNat % 2 ^ 16 = (if i.chan = .sha1 then 20 else 32) ∧ 4 * rd.length = (if i.chan = .sha1 then 20 else 32)) ∧
  (∀ (n : Nat) (H : Vector Word n), (serialize H).length = 4 * n)

/-! The block as a whole. -/

/-- R116: the transition table of a channel, phase and status, for every command; an illegal frame leaves both
channels unchanged; FINAL in phase CREATED answers the digest of the empty message. -/
def Obligations.PhaseTransitionTable : Prop :=
  (∀ (i : Instr) (s : State), ∃ (t : State) (rh : Word) (rd : List Word),
    exec i s = .next t ∧ t.rspq = s.rspq ++ rh :: rd ∧
    (t.phaseOf i.chan, rh.toNat / 2 ^ 24) =
      match i.opcode, s.phaseOf i.chan with
      | .init, _ => (.created, 0)
      | .feed, .none => (.none, 1)
      | .feed, .created => (.updating, 0)
      | .feed, .updating => (.updating, 0)
      | .feed, .finalized => (.finalized, 1)
      | .final, .none => (.none, 1)
      | .final, .created => (.finalized, 0)
      | .final, .updating => (.finalized, 0)
      | .final, .finalized => (.finalized, 1)
      | .digest, p => (p, 0)
      | .dlen, p => (p, 0)
      | .status, p => (p, 0)) ∧
  (∀ (s t : State) (cause : IllegalCause) (h : Word) (rest : List Word), s.env.turns = [] →
    decodeFrame s.cmdq = .error (.illegal cause h rest) → step s = .next t →
    t.ch0 = s.ch0 ∧ t.ch1 = s.ch1 ∧ ∃ rh, t.rspq = s.rspq ++ [rh] ∧ rh.toNat / 2 ^ 24 = 3) ∧
  (∀ (c : Chan) (s : State), s.Inv → s.phaseOf c = .created → ∃ (t u : State) (frame : List Word),
    exec (.final c) s = .next t ∧ t.rspq = s.rspq ++ frame ∧
    exec (.digest c []) s = .next u ∧ u.rspq = s.rspq ++ frame)

/-- R8, R21, R47: the frame of the commands. A command leaves the command port, the outside world and the other
channel as they are and only appends to the response port; DIGEST, DLEN and STATUS leave both channels as they are;
FINAL keeps `total` and `lenwrap`. -/
def Obligations.CommandsTouchOnlyTheirChannel : Prop :=
  ∀ (i : Instr) (s t : State), exec i s = .next t →
    t.cmdq = s.cmdq ∧ t.env = s.env ∧ (∃ frame, t.rspq = s.rspq ++ frame) ∧
    (i.chan = .sha1 → t.ch1 = s.ch1) ∧ (i.chan = .sha256 → t.ch0 = s.ch0) ∧
    (i.opcode = .digest ∨ i.opcode = .dlen ∨ i.opcode = .status → t.ch0 = s.ch0 ∧ t.ch1 = s.ch1) ∧
    (i.opcode = .final → t.ch0.total = s.ch0.total ∧ t.ch0.lenwrap = s.ch0.lenwrap ∧
      t.ch1.total = s.ch1.total ∧ t.ch1.lenwrap = s.ch1.lenwrap)

/-- R184: errors are precise. Whatever is scheduled, a step that appends a response with a status other than OK
consumes that command's frame, appends one response header, and changes nothing else, but that a turn given to the
engine is taken. -/
def Obligations.ErrorsChangeNothing : Prop :=
  ∀ (s t : State) (rh : Word) (rd : List Word), step s = .next t →
    t.rspq = s.rspq ++ rh :: rd → rh.toNat / 2 ^ 24 ≠ 0 →
    rd = [] ∧ ∃ (h : Word) (data rest : List Word), s.cmdq = h :: data ++ rest ∧
      data.length = (h.toNat % 2 ^ 16 + 3) / 4 ∧
      (t = { s with cmdq := rest, rspq := s.rspq ++ [rh] } ∨
        ∃ ts, s.env.turns = .engine :: ts ∧
          t = { s with cmdq := rest, rspq := s.rspq ++ [rh], env := { s.env with turns := ts } })

/-- R183: no command fails for its data: every payload is accepted by FEED on an open channel and by DIGEST on any,
and every command runs in every state. -/
def Obligations.NoCommandFailsForItsData : Prop :=
  (∀ (i : Instr) (s : State), ∃ t, exec i s = .next t) ∧
  (∀ (c : Chan) (data : List Byte) (s : State), (s.phaseOf c = .created ∨ s.phaseOf c = .updating) →
    ∃ (t : State) (rh : Word), exec (.feed c data) s = .next t ∧ t.rspq = s.rspq ++ [rh] ∧ rh.toNat / 2 ^ 24 = 0) ∧
  (∀ (c : Chan) (data : List Byte) (s : State), ∃ (t : State) (rh : Word) (rd : List Word),
    exec (.digest c data) s = .next t ∧ t.rspq = s.rspq ++ rh :: rd ∧ rh.toNat / 2 ^ 24 = 0 ∧ rd ≠ [])

/-- R48: two commands on different channels change disjoint state; swapping them only swaps their responses. -/
def Obligations.ChannelsAreIndependent : Prop :=
  ∀ (i j : Instr) (s : State), i.chan ≠ j.chan →
    ∃ (t u : State) (f g : List Word), execAll [i, j] s = .next t ∧ execAll [j, i] s = .next u ∧
      t.rspq = s.rspq ++ f ++ g ∧ u.rspq = s.rspq ++ g ++ f ∧
      t.ch0 = u.ch0 ∧ t.ch1 = u.ch1 ∧ t.cmdq = u.cmdq ∧ t.env = u.env

/-- R209: how many compression steps FEED, FINAL and DIGEST run, over which blocks, and their bounds; the blocks do
not depend on the algorithm or the hash words. INIT, DLEN and STATUS run none: what they do is stated without any. -/
def Obligations.CompressionStepsPerCommand : Prop :=
  (∀ pend data : List Byte, ∃ blocks : List (List Byte), blocks.length = (pend.length + data.length) / 64 ∧
    (pend.length ≤ 63 → data.length ≤ 65535 → blocks.length ≤ 1024) ∧
    ∀ (n : Nat) (A : Algo n) (ch : Channel n), ch.pend = pend → (ch.accept A data).H = blocks.foldl A.compress ch.H) ∧
  (∀ (pend : List Byte) (total : Word64), pend.length ≤ 63 → ∃ blocks : List (List Byte),
    blocks.length = (if pend.length ≤ 55 then 1 else 2) ∧
    ∀ (n : Nat) (A : Algo n) (ch : Channel n), ch.pend = pend → ch.total = total →
      (ch.finish A).H = blocks.foldl A.compress ch.H) ∧
  (∀ data : List Byte, ∃ blocks : List (List Byte),
    blocks.length = (if data.length % 64 ≤ 55 then data.length / 64 + 1 else data.length / 64 + 2) ∧
    (data.length ≤ 65535 → blocks.length ≤ 1025) ∧
    ∀ (n : Nat) (A : Algo n), digestWords A data = blocks.foldl A.compress A.iv)

/-- R36, R29 (I-b): the unspecified `H` and `total` of a channel in phase NONE cannot be observed: two states that
differ only there step alike and stay alike, in all that the ports show. -/
def Obligations.UnspecifiedValuesAreUnobservable : Prop :=
  ∀ s t : State, s.Agrees t → OutcomesAgree (step s) (step t)

/-! The invariant, reset, and the outside world. -/

/-- R35: the invariant of R29 holds right after power-on (the ports' capacities are the model's configuration, log 2).
-/
def Obligations.ResetMeetsTheInvariant : Prop := State.reset.Inv

/-- R29, R24, R32, R205: every step, of the engine or of the outside world, keeps the invariant: both channels hold a
message as R29 says, at most 63 bytes pending, and both ports stay within their capacity. -/
def Obligations.EveryStepKeepsTheInvariant : Prop := ∀ s t : State, s.Inv → step s = .next t → t.Inv

/-- R24, R29 (I-a): the invariant bounds the pending bytes, so STATUS shows their number exactly. -/
def Obligations.InvariantBoundsThePendingBytes : Prop :=
  ∀ s : State, s.Inv → s.ch0.pend.length ≤ 63 ∧ s.ch1.pend.length ≤ 63

/-- R35, R200, R201: power-on, and reset in any state, leave both channels in phase NONE with nothing pending and the
wrap flag clear, and both ports empty; both STATUS words read 0. Nothing is said of `H` and `total`. That the schedule
goes on and the hosts keep what they have received is the model's (log 9). -/
def Obligations.ResetValues : Prop :=
  (State.reset.ch0.phase = .none ∧ State.reset.ch0.pend = [] ∧ State.reset.ch0.lenwrap = false ∧
    State.reset.ch1.phase = .none ∧ State.reset.ch1.pend = [] ∧ State.reset.ch1.lenwrap = false ∧
    State.reset.cmdq = [] ∧ State.reset.rspq = [] ∧
    State.reset.ch0.statusWord = 0 ∧ State.reset.ch1.statusWord = 0) ∧
  (∀ (s : State) (ts : List Turn), s.env.turns = .reset :: ts → ∃ t, step s = .next t ∧
    t.ch0.phase = .none ∧ t.ch0.pend = [] ∧ t.ch0.lenwrap = false ∧
    t.ch1.phase = .none ∧ t.ch1.pend = [] ∧ t.ch1.lenwrap = false ∧
    t.cmdq = [] ∧ t.rspq = [] ∧ t.ch0.statusWord = 0 ∧ t.ch1.statusWord = 0 ∧
    t.env.turns = ts ∧ t.env.received = s.env.received)

/-- R32, R44: a host's append goes to the tail of the command port, a host's removal takes the head of the response
port, destructively, and neither touches anything else of the block. -/
def Obligations.PortAccessesMoveOneWord : Prop :=
  (∀ (s : State) (host : Nat) (w : Word) (ts : List Turn), s.env.turns = .push host w :: ts →
    s.cmdq.length < Config.cmdFifoDepth → (openWords s.cmdq = 0 ∨ host = s.env.tailHost) →
    step s = .next { s with
      cmdq := s.cmdq ++ [w]
      env := { s.env with turns := ts, tailHost := host } }) ∧
  (∀ (s : State) (w : Word) (ws : List Word) (ts : List Turn), s.env.turns = .pop :: ts → s.rspq = w :: ws →
    step s = .next { s with
      rspq := ws
      env := { s.env with turns := ts, received := s.env.received ++ [w] } })

/-- R53: an append inside another host's frame is refused; behind whole frames any host may append. That a host at a
full port holds first (R205), the refusal coming when there is room, and how the model knows the last word's host, are
the model's choice (log 8). -/
def Obligations.InterleavedFramesAreRefused : Prop :=
  (∀ (s : State) (host : Nat) (w h : Word) (frames : List (List Word)) (data : List Word) (ts : List Turn),
    s.env.turns = .push host w :: ts → (∀ f ∈ frames, ∃ h' d, f = h' :: d ∧ d.length = dataWords h') →
    s.cmdq = frames.flatten ++ h :: data → data.length < dataWords h → host ≠ s.env.tailHost →
    step s = if s.cmdq.length < Config.cmdFifoDepth then .refused .interleavedFrame else engineStep s) ∧
  (∀ (s : State) (host : Nat) (w : Word) (frames : List (List Word)) (ts : List Turn),
    s.env.turns = .push host w :: ts → s.cmdq.length < Config.cmdFifoDepth →
    (∀ f ∈ frames, ∃ h' d, f = h' :: d ∧ d.length = dataWords h') → s.cmdq = frames.flatten →
    ∃ t, step s = .next t ∧ t.cmdq = s.cmdq ++ [w])

/-- R53, R205: a host that appends a run of words, with room for all of them and no other host's frame open, appends
them all, in order, one step each. -/
def Obligations.HostAppendsAWholeRun : Prop :=
  ∀ (s : State) (host : Nat) (ws : List Word) (ts : List Turn), s.env.turns = pushAll host ws ++ ts →
    s.cmdq.length + ws.length ≤ Config.cmdFifoDepth → (openWords s.cmdq = 0 ∨ host = s.env.tailHost) →
    Sys2Proof.core.run ws.length s = .next { s with
      cmdq := s.cmdq ++ ws
      env := { s.env with turns := ts, tailHost := if ws = [] then s.env.tailHost else host } }

/-- R53: the model refuses only an append that interleaves with another host's frame: no command is refused, and a
step is safe whenever no such append is next. -/
def Obligations.OnlyInterleavedAppendsAreRefused : Prop :=
  (∀ (s : State) (r : Refusal), step s = .refused r →
    r = .interleavedFrame ∧ ∃ host w ts, s.env.turns = .push host w :: ts ∧ host ≠ s.env.tailHost ∧
      openWords s.cmdq ≠ 0) ∧
  (∀ s : State, (∀ host w ts, s.env.turns = .push host w :: ts → host = s.env.tailHost ∨ openWords s.cmdq = 0) →
    SafeStep s)

/-! The compression steps. -/

/-- R132, R152: the mixing functions, bit by bit: choice takes `y` where `x` is 1 and `z` where it is 0; parity is 1
where an odd number of the three are (R132 alone); majority is 1 where at least two are. -/
def Obligations.MixingFunctionsBitByBit : Prop :=
  ∀ (x y z : Word) (i : Nat), i < 32 →
    (choose x y z).getLsbD i = (if x.getLsbD i then y.getLsbD i else z.getLsbD i) ∧
    ((parity x y z).getLsbD i = true ↔
      ((x.getLsbD i).toNat + (y.getLsbD i).toNat + (z.getLsbD i).toNat) % 2 = 1) ∧
    ((majority x y z).getLsbD i = true ↔
      2 ≤ (x.getLsbD i).toNat + (y.getLsbD i).toNat + (z.getLsbD i).toNat)

/-- R12, R153, R154: the rotations and shifts as arithmetic, and the four SHA-256 functions made of them. -/
def Obligations.RotationsAndSigmaFunctions : Prop :=
  (∀ (x : Word) (n : Nat), 0 < n → n < 32 →
    (rotl n x).toNat = (x.toNat * 2 ^ n + x.toNat / 2 ^ (32 - n)) % 2 ^ 32 ∧
    (rotr n x).toNat = (x.toNat / 2 ^ n + x.toNat * 2 ^ (32 - n)) % 2 ^ 32 ∧
    (shr n x).toNat = x.toNat / 2 ^ n) ∧
  (∀ x : Word,
    bigSigma0 x = x.rotateRight 2 ^^^ x.rotateRight 13 ^^^ x.rotateRight 22 ∧
    bigSigma1 x = x.rotateRight 6 ^^^ x.rotateRight 11 ^^^ x.rotateRight 25 ∧
    smallSigma0 x = x.rotateRight 7 ^^^ x.rotateRight 18 ^^^ x >>> 3 ∧
    smallSigma1 x = x.rotateRight 17 ^^^ x.rotateRight 19 ^^^ x >>> 10)

/-- R133, R134: the SHA-1 message schedule: 16 big-endian words of the block, then the recurrence up to word 79. -/
def Obligations.Sha1ScheduleRecurrence : Prop :=
  ∀ B : List Byte, (schedule1 B).length = 80 ∧
    (∀ i, i < 16 → (schedule1 B).getD i 0 =
      be32dec (B.getD (4 * i) 0) (B.getD (4 * i + 1) 0) (B.getD (4 * i + 2) 0) (B.getD (4 * i + 3) 0)) ∧
    (∀ t, 16 ≤ t → t < 80 → (schedule1 B).getD t 0 =
      ((schedule1 B).getD (t - 3) 0 ^^^ (schedule1 B).getD (t - 8) 0 ^^^ (schedule1 B).getD (t - 14) 0 ^^^
        (schedule1 B).getD (t - 16) 0).rotateLeft 1)

/-- R131, R132, R135 to R138: the SHA-1 round registers start from the hash words, every round changes them as R136
says with the phase's function and constant, and after 80 rounds each is added into its hash word. -/
def Obligations.Sha1RoundsAndResult : Prop :=
  ∀ (H : Vector Word 5) (W : List Word) (B : List Byte),
    (rounds1 W H 0 = { a := H[0], b := H[1], c := H[2], d := H[3], e := H[4] }) ∧
    (∀ t, t < 80 →
      rounds1 W H (t + 1) =
        { a := (rounds1 W H t).a.rotateLeft 5 +
            (if t < 20 then choose (rounds1 W H t).b (rounds1 W H t).c (rounds1 W H t).d
             else if 40 ≤ t ∧ t < 60 then majority (rounds1 W H t).b (rounds1 W H t).c (rounds1 W H t).d
             else parity (rounds1 W H t).b (rounds1 W H t).c (rounds1 W H t).d) +
            (rounds1 W H t).e +
            (if t < 20 then 0x5A827999 else if t < 40 then 0x6ED9EBA1 else if t < 60 then 0x8F1BBCDC else 0xCA62C1D6) +
            W.getD t 0
          b := (rounds1 W H t).a
          c := (rounds1 W H t).b.rotateLeft 30
          d := (rounds1 W H t).c
          e := (rounds1 W H t).d }) ∧
    compress1 H B =
      #v[H[0] + (rounds1 (schedule1 B) H 80).a, H[1] + (rounds1 (schedule1 B) H 80).b,
         H[2] + (rounds1 (schedule1 B) H 80).c, H[3] + (rounds1 (schedule1 B) H 80).d,
         H[4] + (rounds1 (schedule1 B) H 80).e]

/-- R155, R156: the SHA-256 message schedule: 16 big-endian words of the block, then the recurrence up to word 63. -/
def Obligations.Sha256ScheduleRecurrence : Prop :=
  ∀ B : List Byte, (schedule256 B).length = 64 ∧
    (∀ i, i < 16 → (schedule256 B).getD i 0 =
      be32dec (B.getD (4 * i) 0) (B.getD (4 * i + 1) 0) (B.getD (4 * i + 2) 0) (B.getD (4 * i + 3) 0)) ∧
    (∀ t, 16 ≤ t → t < 64 → (schedule256 B).getD t 0 =
      smallSigma1 ((schedule256 B).getD (t - 2) 0) + (schedule256 B).getD (t - 7) 0 +
        smallSigma0 ((schedule256 B).getD (t - 15) 0) + (schedule256 B).getD (t - 16) 0)

/-- R151, R157 to R159: the 64 round constants; the SHA-256 round registers start from the hash words, every round
changes them by T1 and T2, and after 64 rounds each is added into its hash word. -/
def Obligations.Sha256RoundsAndResult : Prop :=
  k256Table =
    ([0x428a2f98, 0x71374491, 0xb5c0fbcf, 0xe9b5dba5, 0x3956c25b, 0x59f111f1, 0x923f82a4, 0xab1c5ed5] : List Word) ++
    [0xd807aa98, 0x12835b01, 0x243185be, 0x550c7dc3, 0x72be5d74, 0x80deb1fe, 0x9bdc06a7, 0xc19bf174] ++
    [0xe49b69c1, 0xefbe4786, 0x0fc19dc6, 0x240ca1cc, 0x2de92c6f, 0x4a7484aa, 0x5cb0a9dc, 0x76f988da] ++
    [0x983e5152, 0xa831c66d, 0xb00327c8, 0xbf597fc7, 0xc6e00bf3, 0xd5a79147, 0x06ca6351, 0x14292967] ++
    [0x27b70a85, 0x2e1b2138, 0x4d2c6dfc, 0x53380d13, 0x650a7354, 0x766a0abb, 0x81c2c92e, 0x92722c85] ++
    [0xa2bfe8a1, 0xa81a664b, 0xc24b8b70, 0xc76c51a3, 0xd192e819, 0xd6990624, 0xf40e3585, 0x106aa070] ++
    [0x19a4c116, 0x1e376c08, 0x2748774c, 0x34b0bcb5, 0x391c0cb3, 0x4ed8aa4a, 0x5b9cca4f, 0x682e6ff3] ++
    [0x748f82ee, 0x78a5636f, 0x84c87814, 0x8cc70208, 0x90befffa, 0xa4506ceb, 0xbef9a3f7, 0xc67178f2] ∧
  ∀ (H : Vector Word 8) (W : List Word) (B : List Byte),
    (rounds256 W H 0 =
      { a := H[0], b := H[1], c := H[2], d := H[3], e := H[4], f := H[5], g := H[6], h := H[7] }) ∧
    (∀ t, t < 64 → ∃ T1 T2 : Word,
      T1 = (rounds256 W H t).h + bigSigma1 (rounds256 W H t).e +
        choose (rounds256 W H t).e (rounds256 W H t).f (rounds256 W H t).g + k256Table.getD t 0 + W.getD t 0 ∧
      T2 = bigSigma0 (rounds256 W H t).a +
        majority (rounds256 W H t).a (rounds256 W H t).b (rounds256 W H t).c ∧
      rounds256 W H (t + 1) =
        { a := T1 + T2, b := (rounds256 W H t).a, c := (rounds256 W H t).b, d := (rounds256 W H t).c
          e := (rounds256 W H t).d + T1, f := (rounds256 W H t).e, g := (rounds256 W H t).f
          h := (rounds256 W H t).g }) ∧
    compress256 H B =
      #v[H[0] + (rounds256 (schedule256 B) H 64).a, H[1] + (rounds256 (schedule256 B) H 64).b,
         H[2] + (rounds256 (schedule256 B) H 64).c, H[3] + (rounds256 (schedule256 B) H 64).d,
         H[4] + (rounds256 (schedule256 B) H 64).e, H[5] + (rounds256 (schedule256 B) H 64).f,
         H[6] + (rounds256 (schedule256 B) H 64).g, H[7] + (rounds256 (schedule256 B) H 64).h]

/-- R42: hash words appear unchanged as response data words; the payload word `0x61626364` delivers `a`, `b`, `c`, `d`
in that order; a FEED of exactly 64 bytes on an empty pending block gives the compression step a block whose schedule
words 0 to 15 are its data words. -/
def Obligations.DataWordsAreScheduleWords : Prop :=
  (∀ (n : Nat) (H : Vector Word n), packWords (serialize H) = H.toList) ∧
  payload 4 [0x61626364] = [0x61, 0x62, 0x63, 0x64] ∧
  (∀ ws : List Word, ws.length = 16 →
    (schedule1 (payload 64 ws)).take 16 = ws ∧ (schedule256 (payload 64 ws)).take 16 = ws ∧
    ∀ (n : Nat) (A : Algo n) (H : Vector Word n), absorb A H [] (payload 64 ws) = (A.compress H (payload 64 ws), []))
end

