-- ==== Sys2Proof/Laws/Codec.lean ====
section
/-! SUPPORT. The byte order, the packing of payloads, and the header fields: one lemma for each function of Decode. -/

namespace Sys2Proof

/-! Bytes and words. -/

theorem be32_length (x : Word) : (be32 x).length = 4 := rfl

/-- R13: the value of a word put together from four bytes. -/
theorem be32dec_toNat (a b c d : Byte) :
    (be32dec a b c d).toNat = a.toNat * 2 ^ 24 + b.toNat * 2 ^ 16 + c.toNat * 2 ^ 8 + d.toNat := by
  have := a.isLt; have := b.isLt; have := c.isLt; have := d.isLt
  simp only [be32dec, BitVec.toNat_append]
  rw [← Nat.shiftLeft_add_eq_or_of_lt (by omega), ← Nat.shiftLeft_add_eq_or_of_lt (by omega),
    ← Nat.shiftLeft_add_eq_or_of_lt (by omega)]
  simp only [Nat.shiftLeft_eq]; omega

/-- R13: splitting a word into bytes undoes putting it together. -/
theorem be32_be32dec (a b c d : Byte) : be32 (be32dec a b c d) = [a, b, c, d] := by
  have := a.isLt; have := b.isLt; have := c.isLt; have := d.isLt
  simp only [be32, List.cons.injEq, and_true, ← BitVec.toNat_inj, BitVec.extractLsb'_toNat, be32dec_toNat,
    Nat.shiftRight_eq_div_pow]
  omega

/-- R13: putting a word together undoes splitting it into bytes. -/
theorem be32dec_be32 (x : Word) :
    be32dec (x.extractLsb' 24 8) (x.extractLsb' 16 8) (x.extractLsb' 8 8) (x.extractLsb' 0 8) = x := by
  have := x.isLt
  simp only [← BitVec.toNat_inj, BitVec.extractLsb'_toNat, be32dec_toNat, Nat.shiftRight_eq_div_pow]
  omega

/-! Packing. -/

theorem flatMap_be32_length (ws : List Word) : (ws.flatMap be32).length = 4 * ws.length := by
  induction ws with
  | nil => rfl
  | cons w ws ih => rw [List.flatMap_cons, List.length_append, ih, be32_length, List.length_cons]; omega

theorem packWords_length (bs : List Byte) : (packWords bs).length = wordsFor bs.length := by
  fun_induction packWords bs with
  | case5 a b c d rest ih => simp only [List.length_cons, ih, wordsFor]; omega
  | _ => simp [wordsFor]

/-- R63: unpacking the packed bytes gives the bytes and the zeros of the unused lanes. -/
theorem flatMap_be32_packWords (bs : List Byte) : ∃ k, (packWords bs).flatMap be32 = bs ++ List.replicate k 0 := by
  fun_induction packWords bs with
  | case1 => exact ⟨0, rfl⟩
  | case2 a => exact ⟨3, by simp [be32_be32dec, List.replicate]⟩
  | case3 a b => exact ⟨2, by simp [be32_be32dec, List.replicate]⟩
  | case4 a b c => exact ⟨1, by simp [be32_be32dec, List.replicate]⟩
  | case5 a b c d rest ih => obtain ⟨k, hk⟩ := ih; exact ⟨k, by simp [be32_be32dec, hk]⟩

/-- R61, R69: the payload of packed bytes is the bytes. -/
theorem payload_packWords (bs : List Byte) : payload bs.length (packWords bs) = bs := by
  obtain ⟨k, hk⟩ := flatMap_be32_packWords bs
  rw [payload, hk, List.take_left']; rfl

/-- R42: packing undoes unpacking. -/
theorem packWords_flatMap_be32 (ws : List Word) : packWords (ws.flatMap be32) = ws := by
  induction ws with
  | nil => rfl
  | cons w ws ih =>
    rw [List.flatMap_cons]
    simp only [be32, List.cons_append, List.nil_append, packWords, be32dec_be32]
    exact congrArg _ ih

theorem payload_length (count : Nat) (ws : List Word) : (payload count ws).length = min count (4 * ws.length) := by
  rw [payload, List.length_take, flatMap_be32_length]

/-! Header fields. -/

/-- R62: the value of a header word. -/
theorem headerWord_toNat (op : BitVec 8) (c : BitVec 4) (n : Nat) :
    (headerWord op c n).toNat = op.toNat * 2 ^ 24 + c.toNat * 2 ^ 20 + n % 2 ^ 16 := by
  have := op.isLt; have := c.isLt
  simp only [headerWord, BitVec.toNat_append, BitVec.toNat_ofNat]
  rw [← Nat.shiftLeft_add_eq_or_of_lt (by omega), ← Nat.shiftLeft_add_eq_or_of_lt (by decide),
    ← Nat.shiftLeft_add_eq_or_of_lt (by omega)]
  simp only [Nat.shiftLeft_eq, show (0 : BitVec 4).toNat = 0 from rfl]; omega

theorem opcodeField_toNat (h : Word) : (opcodeField h).toNat = h.toNat / 2 ^ 24 := by
  have := h.isLt
  simp only [opcodeField, BitVec.extractLsb'_toNat, Nat.shiftRight_eq_div_pow]; omega

theorem chanField_toNat (h : Word) : (chanField h).toNat = h.toNat / 2 ^ 20 % 16 := by
  simp only [chanField, BitVec.extractLsb'_toNat, Nat.shiftRight_eq_div_pow]

theorem rsvField_toNat (h : Word) : (rsvField h).toNat = h.toNat / 2 ^ 16 % 16 := by
  simp only [rsvField, BitVec.extractLsb'_toNat, Nat.shiftRight_eq_div_pow]

theorem countField_toNat (h : Word) : (countField h).toNat = h.toNat % 2 ^ 16 := by
  simp only [countField, BitVec.extractLsb'_toNat, Nat.shiftRight_eq_div_pow]; omega

theorem opcodeField_headerWord (op : BitVec 8) (c : BitVec 4) (n : Nat) : opcodeField (headerWord op c n) = op := by
  have := op.isLt; have := c.isLt
  rw [← BitVec.toNat_inj, opcodeField_toNat, headerWord_toNat]; omega

theorem chanField_headerWord (op : BitVec 8) (c : BitVec 4) (n : Nat) : chanField (headerWord op c n) = c := by
  have := op.isLt; have := c.isLt
  rw [← BitVec.toNat_inj, chanField_toNat, headerWord_toNat]; omega

theorem rsvField_headerWord (op : BitVec 8) (c : BitVec 4) (n : Nat) : rsvField (headerWord op c n) = 0 := by
  have := op.isLt; have := c.isLt
  rw [← BitVec.toNat_inj, rsvField_toNat, headerWord_toNat, show (0 : BitVec 4).toNat = 0 from rfl]; omega

theorem countField_headerWord (op : BitVec 8) (c : BitVec 4) {n : Nat} (hn : n ≤ 65535) :
    (countField (headerWord op c n)).toNat = n := by
  rw [countField_toNat, headerWord_toNat]; omega

theorem dataWords_headerWord (op : BitVec 8) (c : BitVec 4) {n : Nat} (hn : n ≤ 65535) :
    dataWords (headerWord op c n) = wordsFor n := by
  rw [dataWords, countField_headerWord op c hn]

/-! The opcode map and the channel numbers. -/

theorem Opcode.ofCode_code (op : Opcode) : Opcode.ofCode op.code = some op := by cases op <;> decide

theorem Opcode.code_of_ofCode {x : BitVec 8} {op : Opcode} (h : Opcode.ofCode x = some op) : op.code = x := by
  unfold Opcode.ofCode at h
  repeat' split at h
  all_goals first | (cases h; simp only [Opcode.code, *]) | cases h

theorem Chan.ofNumber_number (c : Chan) : Chan.ofNumber c.number = some c := by cases c <;> decide

theorem Chan.number_of_ofNumber {x : BitVec 4} {c : Chan} (h : Chan.ofNumber x = some c) : c.number = x := by
  unfold Chan.ofNumber at h
  repeat' split at h
  all_goals first | (cases h; simp only [Chan.number, *]) | cases h

/-- R66: what a legal header is: its fields name an operation and a channel, RSV is 0, and COUNT is 0 unless the
operation carries a payload. -/
theorem decodeHeader_ok_iff (h : Word) (op : Opcode) (c : Chan) :
    decodeHeader h = .ok (op, c) ↔
      opcodeField h = op.code ∧ rsvField h = 0 ∧ chanField h = c.number ∧ (op.hasPayload = true ∨ countField h = 0) := by
  unfold decodeHeader
  constructor
  · intro e
    split at e
    · cases e
    · rename_i op' hop
      split at e
      · cases e
      · rename_i hr
        split at e
        · cases e
        · rename_i c' hc
          split at e
          · cases e
          · rename_i hp
            cases e
            refine ⟨(Opcode.code_of_ofCode hop).symm, by simpa using hr, (Chan.number_of_ofNumber hc).symm, ?_⟩
            simp only [Bool.and_eq_true, decide_eq_true_eq, not_and_or, Bool.not_eq_true', Bool.not_eq_false] at hp
            simpa using hp
  · rintro ⟨h1, h2, h3, h4⟩
    rw [h1, h3, Opcode.ofCode_code, Chan.ofNumber_number]
    rcases h4 with h4 | h4 <;> simp [h2, h4]

/-- R62, R64: the header of an operation, a channel and a count that the operation may carry is legal. -/
theorem decodeHeader_headerWord (op : Opcode) (c : Chan) {n : Nat} (hn : n ≤ 65535)
    (hp : op.hasPayload = true ∨ n = 0) : decodeHeader (headerWord op.code c.number n) = .ok (op, c) := by
  rw [decodeHeader_ok_iff]
  refine ⟨opcodeField_headerWord .., rsvField_headerWord .., chanField_headerWord .., hp.imp_right fun h => ?_⟩
  rw [← BitVec.toNat_inj, countField_headerWord _ _ hn, h]; rfl

/-! Instructions and their parts. -/

theorem Instr.ofParts_parts (i : Instr) : Instr.ofParts i.opcode i.chan i.data = i := by cases i <;> rfl

theorem Instr.hasPayload_or_data_nil (i : Instr) : i.opcode.hasPayload = true ∨ i.data = [] := by
  cases i <;> simp [Instr.opcode, Instr.data, Opcode.hasPayload]

theorem Instr.wf_iff (i : Instr) : i.wf = true ↔ i.data.length ≤ 65535 := by
  rw [Instr.wf, decide_eq_true_iff, countMax]

theorem Instr.opcode_ofParts (op : Opcode) (c : Chan) (d : List Byte) : (Instr.ofParts op c d).opcode = op := by
  cases op <;> rfl

theorem Instr.chan_ofParts (op : Opcode) (c : Chan) (d : List Byte) : (Instr.ofParts op c d).chan = c := by
  cases op <;> rfl

/-- R61: the first `count` bytes of `ceil(count / 4)` words are `count` bytes. -/
theorem payload_length_eq {count : Nat} {ws : List Word} (h : ws.length = wordsFor count) :
    (payload count ws).length = count := by
  rw [payload_length, h, wordsFor]; omega

/-! Frames: what an answer of `decodeFrame` says of the words it was given. -/

theorem decodeFrame_ok {ws rest : List Word} {i : Instr} (e : decodeFrame ws = .ok (i, rest)) :
    ∃ h tail op c, ws = h :: tail ∧ dataWords h ≤ tail.length ∧ decodeHeader h = .ok (op, c) ∧
      i = Instr.ofParts op c (payload (countField h).toNat (tail.take (dataWords h))) ∧
      rest = tail.drop (dataWords h) := by
  cases ws with
  | nil => cases e
  | cons h tail =>
    simp only [decodeFrame] at e
    split at e
    · cases e
    · rename_i hl
      cases hd : decodeHeader h with
      | error x => rw [hd] at e; cases e
      | ok p => rw [hd] at e; cases e; exact ⟨h, tail, p.1, p.2, rfl, by omega, hd, rfl, rfl⟩

theorem decodeFrame_illegal {ws rest : List Word} {h : Word} {cause : IllegalCause}
    (e : decodeFrame ws = .error (.illegal cause h rest)) :
    ∃ tail, ws = h :: tail ∧ dataWords h ≤ tail.length ∧ decodeHeader h = .error cause ∧
      rest = tail.drop (dataWords h) := by
  cases ws with
  | nil => cases e
  | cons h' tail =>
    simp only [decodeFrame] at e
    split at e
    · cases e
    · rename_i hl
      cases hd : decodeHeader h' with
      | error x => rw [hd] at e; cases e; exact ⟨tail, rfl, by omega, hd, rfl⟩
      | ok p => rw [hd] at e; cases e

theorem decodeFrame_missing {ws : List Word} {n : Nat} (e : decodeFrame ws = .error (.missingWords n)) :
    ∃ h tail, ws = h :: tail ∧ tail.length < dataWords h := by
  cases ws with
  | nil => cases e
  | cons h tail =>
    simp only [decodeFrame] at e
    split at e
    · exact ⟨h, tail, rfl, by assumption⟩
    · cases hd : decodeHeader h with
      | error x => rw [hd] at e; cases e
      | ok p => rw [hd] at e; cases e

/-- A whole frame is not "missing words", and what it is depends on its header. -/
theorem decodeFrame_of_complete {h : Word} {tail : List Word} (hl : dataWords h ≤ tail.length) :
    decodeFrame (h :: tail) =
      match decodeHeader h with
      | .error cause => .error (.illegal cause h (tail.drop (dataWords h)))
      | .ok (op, c) =>
        .ok (Instr.ofParts op c (payload (countField h).toNat (tail.take (dataWords h))), tail.drop (dataWords h)) := by
  simp only [decodeFrame, if_neg (Nat.not_lt.mpr hl)] <;> cases decodeHeader h <;> rfl

end Sys2Proof
end

