-- ==== Sys2Proof/Laws/Buffer.lean ====
section
/-! SUPPORT. The block buffer and the padding encoder: how `absorb`, `pad` and `compressBlocks` see a byte list as a
list of 64-byte blocks. -/

namespace Sys2Proof.Machine

variable {n : Nat} (A : Algo n)

/-! Blocks. -/

theorem fullBlocks_length (m : List Byte) : (fullBlocks m).length = m.length / 64 := by simp [fullBlocks]

theorem fullBlocks_of_short {m : List Byte} (h : m.length < 64) : fullBlocks m = [] := by
  rw [fullBlocks, Nat.div_eq_of_lt h]; rfl

theorem fullBlocks_of_long {m : List Byte} (h : 64 ≤ m.length) : fullBlocks m = m.take 64 :: fullBlocks (m.drop 64) := by
  have hk : m.length / 64 = (m.drop 64).length / 64 + 1 := by rw [List.length_drop]; omega
  rw [fullBlocks, hk, List.range_succ_eq_map, List.map_cons, List.map_map, fullBlocks]
  congr 1
  refine List.map_congr_left fun j _ => ?_
  simp only [Function.comp_apply, List.drop_drop]
  congr 2; omega

/-- The blocks of a message are those of its whole-block part and those of the rest. -/
theorem fullBlocks_append (x y : List Byte) :
    fullBlocks (x ++ y) = fullBlocks x ++ fullBlocks (x.drop (64 * (x.length / 64)) ++ y) := by
  induction hk : x.length / 64 generalizing x with
  | zero => rw [fullBlocks_of_short (m := x) (by omega)]; simp
  | succ k ih =>
    have hx : 64 ≤ x.length := by omega
    have hd : (x.drop 64).length / 64 = k := by rw [List.length_drop]; omega
    rw [fullBlocks_of_long (by rw [List.length_append]; omega), fullBlocks_of_long hx,
      List.take_append_of_le_length hx, List.drop_append_of_le_length hx, ih _ hd, List.drop_drop, List.cons_append,
      show 64 + 64 * k = 64 * (k + 1) by omega]

/-- What is left of `x ++ y` behind its whole blocks is left of the rest of `x` followed by `y`. -/
theorem drop_blocks_append (x y : List Byte) :
    (x ++ y).drop (64 * ((x ++ y).length / 64)) =
      (x.drop (64 * (x.length / 64)) ++ y).drop (64 * ((x.drop (64 * (x.length / 64)) ++ y).length / 64)) := by
  have h : 64 * (x.length / 64) ≤ x.length := by omega
  rw [← List.drop_append_of_le_length h, List.drop_drop, List.length_drop]
  congr 1
  have : 64 * (x.length / 64) ≤ (x ++ y).length := by rw [List.length_append]; omega
  omega

/-! `absorb` (R102). -/

theorem absorbLoop_eq (k : Nat) (H : Vector Word n) (buf : List Byte) :
    absorbLoop A k H buf =
      (((List.range k).map fun j => (buf.drop (64 * j)).take 64).foldl A.compress H, buf.drop (64 * k)) := by
  induction k generalizing H buf with
  | zero => rfl
  | succ k ih =>
    rw [absorbLoop, ih, List.drop_drop, List.range_succ_eq_map, List.map_cons, List.map_map, List.foldl_cons]
    congr 1
    · congr 1
      refine List.map_congr_left fun j _ => ?_
      simp only [Function.comp_apply, List.drop_drop]
      congr 2; omega
    · congr 1; omega

/-- R102: the blocks of `pend ++ data` are compressed in order, and the rest stays pending. -/
theorem absorb_spec (H : Vector Word n) (pend data : List Byte) :
    absorb A H pend data =
      ((fullBlocks (pend ++ data)).foldl A.compress H, (pend ++ data).drop (64 * ((pend ++ data).length / 64))) :=
  absorbLoop_eq A _ H _

theorem absorb_pend_length (H : Vector Word n) (pend data : List Byte) :
    (absorb A H pend data).2.length = (pend.length + data.length) % 64 := by
  rw [absorb_spec]; simp only [List.length_drop, List.length_append]; omega

/-- R102: nothing happens to a pending block that is short, when no data comes. -/
theorem absorb_nil (H : Vector Word n) {pend : List Byte} (h : pend.length < 64) : absorb A H pend [] = (H, pend) := by
  rw [absorb_spec, List.append_nil, fullBlocks_of_short h, Nat.div_eq_of_lt h]; rfl

/-- R107: absorbing in two parts is absorbing once. -/
theorem absorb_append (H : Vector Word n) (p x y : List Byte) :
    absorb A (absorb A H p x).1 (absorb A H p x).2 y = absorb A H p (x ++ y) := by
  simp only [absorb_spec, ← List.append_assoc]
  rw [fullBlocks_append (p ++ x) y, List.foldl_append, drop_blocks_append (p ++ x) y]

/-! The length counter (R106). -/

theorem addLength_toNat (total : Word64) (k : Nat) : (addLength total k).toNat = (total.toNat + 8 * k) % 2 ^ 64 := by
  rw [addLength, BitVec.toNat_ofNat]

theorem addLength_addLength (total : Word64) (j k : Nat) : addLength (addLength total j) k = addLength total (j + k) := by
  rw [← BitVec.toNat_inj, addLength_toNat, addLength_toNat, addLength_toNat]; omega

theorem lengthCarries_addLength (total : Word64) (j k : Nat) :
    (lengthCarries total j || lengthCarries (addLength total j) k) = lengthCarries total (j + k) := by
  have := total.isLt
  rw [Bool.eq_iff_iff, Bool.or_eq_true]
  simp only [lengthCarries, decide_eq_true_eq, addLength_toNat]
  omega

/-- R107: accepting in two parts is accepting once. -/
theorem Channel.accept_accept (ch : Channel n) (x y : List Byte) :
    (ch.accept A x).accept A y = ch.accept A (x ++ y) := by
  simp only [Channel.accept, absorb_append, addLength_addLength, List.length_append, Bool.or_assoc,
    lengthCarries_addLength]

/-! `pad` and `compressBlocks` (R108 to R110). -/

theorem be64_length (x : Word64) : (be64 x).length = 8 := rfl

theorem pad_length (pend : List Byte) (total : Word64) :
    (pad pend total).length = pend.length + 9 + padZeros pend.length := by
  simp only [pad, List.length_append, List.length_replicate, be64_length, List.length_cons, List.length_nil]; omega

theorem compressBlocks_spec (H : Vector Word n) (P : List Byte) :
    compressBlocks A H P = (fullBlocks P).foldl A.compress H := by
  rw [compressBlocks, fullBlocks, List.foldl_map]

/-- R110: an open channel's hash words, finished on its pending block, are the fold over the whole padded message. -/
theorem fold_padded (m : List Byte) (total : Word64) :
    compressBlocks A ((fullBlocks m).foldl A.compress A.iv) (pad (m.drop (64 * (m.length / 64))) total) =
      (fullBlocks (pad m total)).foldl A.compress A.iv := by
  rw [compressBlocks_spec, ← List.foldl_append]
  congr 1
  rw [show pad m total = m ++ ([0x80] ++ List.replicate (padZeros m.length) 0 ++ be64 total) by
    simp only [pad, List.append_assoc], fullBlocks_append]
  congr 2
  rw [pad, show padZeros (m.drop (64 * (m.length / 64))).length = padZeros m.length by
    rw [List.length_drop, padZeros, padZeros]; congr 2; omega]
  simp only [List.append_assoc]

/-- R16, R170: DIGEST's hash words are the fold over the padded message. -/
theorem digestWords_spec (data : List Byte) : digestWords A data = messageHash A data := by
  rw [digestWords, messageHash, paddedMessage]
  simp only [absorb_spec, List.nil_append]
  exact fold_padded A data _

/-! `serialize` (R112). -/

theorem serialize_length (H : Vector Word n) : (serialize H).length = 4 * n := by
  rw [serialize, flatMap_be32_length, Vector.length_toList]

/-- R42, R112: packed into data words, the digest bytes are the hash words. -/
theorem packWords_serialize (H : Vector Word n) : packWords (serialize H) = H.toList :=
  packWords_flatMap_be32 _

end Sys2Proof.Machine
end

