-- ==== Sys2Proof/Laws/Compression.lean ====
section
/-! SUPPORT. The parts of the compression steps: rotations, block loading, and the shape both schedules and both round
loops share. -/

namespace Sys2Proof.Machine

/-- R12: `ROTL^n` is the library's rotation. -/
theorem rotl_eq_rotateLeft (x : Word) {n : Nat} (h : n < 32) : rotl n x = x.rotateLeft n := by
  rw [BitVec.rotateLeft_def, Nat.mod_eq_of_lt h]; rfl

/-- R12: `ROTR^n` is the library's rotation. -/
theorem rotr_eq_rotateRight (x : Word) {n : Nat} (h : n < 32) : rotr n x = x.rotateRight n := by
  rw [BitVec.rotateRight_def, Nat.mod_eq_of_lt h]; rfl

theorem loadBlock_length (B : List Byte) : (loadBlock B).length = 16 := by simp [loadBlock]

/-- R133, R155: the words of a loaded block. -/
theorem loadBlock_getD (B : List Byte) {i : Nat} (h : i < 16) :
    (loadBlock B).getD i 0 =
      be32dec (B.getD (4 * i) 0) (B.getD (4 * i + 1) 0) (B.getD (4 * i + 2) 0) (B.getD (4 * i + 3) 0) := by
  rw [loadBlock, List.getD_eq_getElem?_getD, List.getElem?_map, List.getElem?_range h]; rfl

theorem getD_append_left (W W' : List Word) {j : Nat} (h : j < W.length) : (W ++ W').getD j 0 = W.getD j 0 := by
  simp only [List.getD_eq_getElem?_getD, List.getElem?_append_left h]

/-- The shape of both schedules: 16 words, then words that each read only earlier ones. -/
theorem foldl_extend (g : List Word → Nat → Word) (k : Nat) (L : List Word) (hL : L.length = 16)
    (hg : ∀ (W W' : List Word) t, W.length = t → 16 ≤ t → g (W ++ W') t = g W t) :
    let R := (List.range' 16 k).foldl (fun W t => W ++ [g W t]) L
    R.length = 16 + k ∧ R.take 16 = L ∧ ∀ t, 16 ≤ t → t < 16 + k → R.getD t 0 = g R t := by
  induction k with
  | zero => exact ⟨hL, by simp [← hL], fun t h1 h2 => by omega⟩
  | succ k ih =>
    intro R
    obtain ⟨h1, h2, h3⟩ := ih
    set R' := (List.range' 16 k).foldl (fun W t => W ++ [g W t]) L with hR'
    have hR : R = R' ++ [g R' (16 + k)] := by
      simp only [R, List.range'_concat, List.foldl_append, List.foldl_cons, List.foldl_nil, one_mul, hR']
    refine ⟨by rw [hR]; simp [h1]; omega, by rw [hR, List.take_append_of_le_length (by omega), h2], fun t a b => ?_⟩
    by_cases htk : t = 16 + k
    · subst htk
      rw [hR, hg R' _ _ h1 a]
      simp [List.getD_eq_getElem?_getD, h1]
    · have htl : t < R'.length := by omega
      have hs : R = R'.take t ++ (R'.drop t ++ [g R' (16 + k)]) := by rw [← List.append_assoc, List.take_append_drop, hR]
      have ht : (R'.take t).length = t := by rw [List.length_take]; omega
      rw [show R.getD t 0 = R'.getD t 0 by rw [hR, getD_append_left _ _ htl], h3 t a (by omega), hs, hg _ _ t ht a]
      conv_lhs => rw [← List.take_append_drop t R']
      rw [hg _ _ t ht a]

/-- R136: one more round. -/
theorem rounds1_succ (W : List Word) (H : Vector Word 5) (t : Nat) :
    rounds1 W H (t + 1) = round1 W (rounds1 W H t) t := by
  rw [rounds1, List.range_succ, List.foldl_append]; rfl

/-- R157: one more round. -/
theorem rounds256_succ (W : List Word) (H : Vector Word 8) (t : Nat) :
    rounds256 W H (t + 1) = round256 W (rounds256 W H t) t := by
  rw [rounds256, List.range_succ, List.foldl_append]; rfl

end Sys2Proof.Machine
end

