-- ==== Sys2Proof/Laws/State.lean ====
section
/-! SUPPORT. What every named update of the state does to every field: true by definition, and simp's. -/

namespace Sys2Proof.Machine

@[simp] theorem State.respond_ch0 (s : State) (st : Status) (c : BitVec 4) (b : List Byte) :
    (s.respond st c b).ch0 = s.ch0 := rfl

@[simp] theorem State.respond_ch1 (s : State) (st : Status) (c : BitVec 4) (b : List Byte) :
    (s.respond st c b).ch1 = s.ch1 := rfl

@[simp] theorem State.respond_cmdq (s : State) (st : Status) (c : BitVec 4) (b : List Byte) :
    (s.respond st c b).cmdq = s.cmdq := rfl

@[simp] theorem State.respond_rspq (s : State) (st : Status) (c : BitVec 4) (b : List Byte) :
    (s.respond st c b).rspq = s.rspq ++ responseFrame st c b := rfl

@[simp] theorem State.respond_env (s : State) (st : Status) (c : BitVec 4) (b : List Byte) :
    (s.respond st c b).env = s.env := rfl

@[simp] theorem State.raise_ch0 (s : State) (st : Status) (c : BitVec 4) :
    (s.raise st c).ch0 = s.ch0 := rfl

@[simp] theorem State.raise_ch1 (s : State) (st : Status) (c : BitVec 4) :
    (s.raise st c).ch1 = s.ch1 := rfl

@[simp] theorem State.raise_cmdq (s : State) (st : Status) (c : BitVec 4) :
    (s.raise st c).cmdq = s.cmdq := rfl

@[simp] theorem State.raise_rspq (s : State) (st : Status) (c : BitVec 4) :
    (s.raise st c).rspq = s.rspq ++ responseFrame st c [] := rfl

@[simp] theorem State.raise_env (s : State) (st : Status) (c : BitVec 4) :
    (s.raise st c).env = s.env := rfl

@[simp] theorem State.consume_ch0 (s : State) (rest : List Word) :
    (s.consume rest).ch0 = s.ch0 := rfl

@[simp] theorem State.consume_ch1 (s : State) (rest : List Word) :
    (s.consume rest).ch1 = s.ch1 := rfl

@[simp] theorem State.consume_cmdq (s : State) (rest : List Word) :
    (s.consume rest).cmdq = rest := rfl

@[simp] theorem State.consume_rspq (s : State) (rest : List Word) :
    (s.consume rest).rspq = s.rspq := rfl

@[simp] theorem State.consume_env (s : State) (rest : List Word) :
    (s.consume rest).env = s.env := rfl

@[simp] theorem State.withTurns_ch0 (s : State) (ts : List Turn) :
    (s.withTurns ts).ch0 = s.ch0 := rfl

@[simp] theorem State.withTurns_ch1 (s : State) (ts : List Turn) :
    (s.withTurns ts).ch1 = s.ch1 := rfl

@[simp] theorem State.withTurns_cmdq (s : State) (ts : List Turn) :
    (s.withTurns ts).cmdq = s.cmdq := rfl

@[simp] theorem State.withTurns_rspq (s : State) (ts : List Turn) :
    (s.withTurns ts).rspq = s.rspq := rfl

@[simp] theorem State.withTurns_env (s : State) (ts : List Turn) :
    (s.withTurns ts).env = { s.env with turns := ts } := rfl

@[simp] theorem State.append_ch0 (s : State) (host : Nat) (w : Word) :
    (s.append host w).ch0 = s.ch0 := rfl

@[simp] theorem State.append_ch1 (s : State) (host : Nat) (w : Word) :
    (s.append host w).ch1 = s.ch1 := rfl

@[simp] theorem State.append_cmdq (s : State) (host : Nat) (w : Word) :
    (s.append host w).cmdq = s.cmdq ++ [w] := rfl

@[simp] theorem State.append_rspq (s : State) (host : Nat) (w : Word) :
    (s.append host w).rspq = s.rspq := rfl

@[simp] theorem State.append_env (s : State) (host : Nat) (w : Word) :
    (s.append host w).env = { s.env with tailHost := host } := rfl

@[simp] theorem State.remove_ch0 (s : State) (w : Word) (rest : List Word) :
    (s.remove w rest).ch0 = s.ch0 := rfl

@[simp] theorem State.remove_ch1 (s : State) (w : Word) (rest : List Word) :
    (s.remove w rest).ch1 = s.ch1 := rfl

@[simp] theorem State.remove_cmdq (s : State) (w : Word) (rest : List Word) :
    (s.remove w rest).cmdq = s.cmdq := rfl

@[simp] theorem State.remove_rspq (s : State) (w : Word) (rest : List Word) :
    (s.remove w rest).rspq = rest := rfl

@[simp] theorem State.remove_env (s : State) (w : Word) (rest : List Word) :
    (s.remove w rest).env = { s.env with received := s.env.received ++ [w] } := rfl

@[simp] theorem State.resetBlock_ch0 (s : State) :
    s.resetBlock.ch0 = Channel.afterReset 5 0 (s.env.draws + 1) := rfl

@[simp] theorem State.resetBlock_ch1 (s : State) :
    s.resetBlock.ch1 = Channel.afterReset 8 1 (s.env.draws + 1) := rfl

@[simp] theorem State.resetBlock_cmdq (s : State) :
    s.resetBlock.cmdq = [] := rfl

@[simp] theorem State.resetBlock_rspq (s : State) :
    s.resetBlock.rspq = [] := rfl

@[simp] theorem State.resetBlock_env (s : State) :
    s.resetBlock.env = { s.env with draws := s.env.draws + 1 } := rfl

/-! A channel after reset (R35). -/

@[simp] theorem Channel.afterReset_phase (n c d : Nat) : (Channel.afterReset n c d).phase = .none := rfl

@[simp] theorem Channel.afterReset_pend (n c d : Nat) : (Channel.afterReset n c d).pend = [] := rfl

@[simp] theorem Channel.afterReset_lenwrap (n c d : Nat) : (Channel.afterReset n c d).lenwrap = false := rfl

end Sys2Proof.Machine
end

