-- ==== Sys2Proof/Laws/Exec.lean ====
section
/-! SUPPORT. What executing one command can do: `exec` always answers a next state; what each command does to its
channel and answers is `commandReply`, and everything else about a command follows from these. -/

namespace Sys2Proof.Machine

/-- What command `i` does to the channel it names: the meanings of all six, side by side. -/
def commandReply (i : Instr) : (n : Nat) → Algo n → Channel n → Reply n :=
  match i with
  | .init _ => initCommand
  | .feed _ d => feedCommand d
  | .final _ => finalCommand
  | .digest _ d => digestCommand d
  | .dlen c => dlenCommand c
  | .status _ => statusCommand

theorem exec_eq_onChannel (i : Instr) (s : State) : exec i s = onChannel i.chan (commandReply i) s := by cases i <;> rfl

/-- The channel after a reply. -/
def Reply.channel {n : Nat} (r : Reply n) (ch : Channel n) : Channel n :=
  match r with
  | .done ch' _ => ch'
  | .raised _ => ch

/-- The status a reply answers. -/
def Reply.status {n : Nat} (r : Reply n) : Status :=
  match r with
  | .done _ _ => .ok
  | .raised st => st

/-- The result bytes a reply answers. -/
def Reply.bytes {n : Nat} (r : Reply n) : List Byte :=
  match r with
  | .done _ b => b
  | .raised _ => []

/-- Everything a command of channel 0 can do. -/
theorem onChannel_sha1 (cmd : (n : Nat) → Algo n → Channel n → Reply n) (s : State) :
    onChannel .sha1 cmd s =
      .next { s with
        ch0 := (cmd 5 algo1 s.ch0).channel s.ch0
        rspq := s.rspq ++ responseFrame (cmd 5 algo1 s.ch0).status 0 (cmd 5 algo1 s.ch0).bytes } := by
  simp only [onChannel]; split <;> rename_i e <;> rw [e] <;> rfl

/-- Everything a command of channel 1 can do. -/
theorem onChannel_sha256 (cmd : (n : Nat) → Algo n → Channel n → Reply n) (s : State) :
    onChannel .sha256 cmd s =
      .next { s with
        ch1 := (cmd 8 algo256 s.ch1).channel s.ch1
        rspq := s.rspq ++ responseFrame (cmd 8 algo256 s.ch1).status 1 (cmd 8 algo256 s.ch1).bytes } := by
  simp only [onChannel]; split <;> rename_i e <;> rw [e] <;> rfl

/-- The reply to a command in state `s`: its status and its result bytes. -/
def replyOf (i : Instr) (s : State) : Status × List Byte :=
  match i.chan with
  | .sha1 => ((commandReply i 5 algo1 s.ch0).status, (commandReply i 5 algo1 s.ch0).bytes)
  | .sha256 => ((commandReply i 8 algo256 s.ch1).status, (commandReply i 8 algo256 s.ch1).bytes)

/-- The block's channel 0 after a command. -/
def ch0After (i : Instr) (s : State) : Channel 5 :=
  match i.chan with
  | .sha1 => (commandReply i 5 algo1 s.ch0).channel s.ch0
  | .sha256 => s.ch0

/-- The block's channel 1 after a command. -/
def ch1After (i : Instr) (s : State) : Channel 8 :=
  match i.chan with
  | .sha1 => s.ch1
  | .sha256 => (commandReply i 8 algo256 s.ch1).channel s.ch1

/-- A command always answers a next state: its channel as `commandReply` says, and one response frame appended. -/
theorem exec_next (i : Instr) (s : State) :
    exec i s = .next { s with
      ch0 := ch0After i s
      ch1 := ch1After i s
      rspq := s.rspq ++ responseFrame (replyOf i s).1 i.chan.number (replyOf i s).2 } := by
  rw [exec_eq_onChannel]
  unfold ch0After ch1After replyOf
  cases hc : i.chan
  · rw [onChannel_sha1]; rfl
  · rw [onChannel_sha256]; rfl

/-- `exec_next`, read backwards. -/
theorem exec_inv {i : Instr} {s t : State} (h : exec i s = .next t) :
    t = { s with
      ch0 := ch0After i s
      ch1 := ch1After i s
      rspq := s.rspq ++ responseFrame (replyOf i s).1 i.chan.number (replyOf i s).2 } := by
  rw [exec_next] at h; cases h; rfl

/-! The reply to each command, and the channel it leaves. -/

variable {n : Nat} (A : Algo n) (ch : Channel n)

theorem feedCommand_open {ch : Channel n} (d : List Byte) (h : ch.phase.isOpen = true) :
    feedCommand d n A ch = .done (ch.accept A d) [] := if_pos h

theorem feedCommand_closed {ch : Channel n} (d : List Byte) (h : ch.phase.isOpen = false) :
    feedCommand d n A ch = .raised .invalidState := if_neg (by simp [h])

theorem finalCommand_open {ch : Channel n} (h : ch.phase.isOpen = true) :
    finalCommand n A ch = .done (ch.finish A) (serialize (ch.finish A).H) := if_pos h

theorem finalCommand_closed {ch : Channel n} (h : ch.phase.isOpen = false) :
    finalCommand n A ch = .raised .invalidState := if_neg (by simp [h])

/-- R184: a raised status leaves the channel as it was; a status other than OK comes only from raising. -/
theorem Reply.channel_of_status_ne_ok {r : Reply n} (h : r.status ≠ .ok) : r.channel ch = ch := by
  cases r with
  | done => exact absurd rfl h
  | raised => rfl

/-- R71, R181, R182: a command answers OK or INVALID_STATE. -/
theorem commandReply_status (i : Instr) :
    (commandReply i n A ch).status = .ok ∨ (commandReply i n A ch).status = .invalidState := by
  cases i with
  | feed c d => cases h : ch.phase.isOpen <;> simp [commandReply, feedCommand, h, Reply.status]
  | final c => cases h : ch.phase.isOpen <;> simp [commandReply, finalCommand, h, Reply.status]
  | _ => exact .inl rfl

theorem replyOf_status (i : Instr) (s : State) : (replyOf i s).1 = .ok ∨ (replyOf i s).1 = .invalidState := by
  unfold replyOf; split <;> exact commandReply_status ..

/-- R72, R205: the room reserved for a response is the length of its result. -/
theorem replyOf_bytes_length (i : Instr) (s : State) : (replyOf i s).2.length = resultBytes i s := by
  cases i with
  | init c => cases c <;> rfl
  | feed c d =>
    cases c
    · cases h : s.ch0.phase.isOpen <;>
        simp [replyOf, Instr.chan, commandReply, feedCommand, h, Reply.bytes, resultBytes]
    · cases h : s.ch1.phase.isOpen <;>
        simp [replyOf, Instr.chan, commandReply, feedCommand, h, Reply.bytes, resultBytes]
  | final c =>
    cases c
    · cases h : s.ch0.phase.isOpen <;>
        simp [replyOf, Instr.chan, commandReply, finalCommand, h, Reply.bytes, resultBytes, State.phaseOf,
          serialize_length, digestLength]
    · cases h : s.ch1.phase.isOpen <;>
        simp [replyOf, Instr.chan, commandReply, finalCommand, h, Reply.bytes, resultBytes, State.phaseOf,
          serialize_length, digestLength]
  | digest c d =>
    cases c <;>
      simp [replyOf, Instr.chan, commandReply, digestCommand, Reply.bytes, resultBytes, serialize_length, digestLength]
  | dlen c => cases c <;> rfl
  | status c => cases c <;> rfl

theorem responseFrame_length (st : Status) (c : BitVec 4) (b : List Byte) :
    (responseFrame st c b).length = responseWords b.length := by
  simp only [responseFrame, List.length_cons, packWords_length, responseWords]; omega

/-- R70: the response a command appends takes exactly the room reserved for it. -/
theorem exec_rspq_length {i : Instr} {s t : State} (h : exec i s = .next t) :
    t.rspq.length = s.rspq.length + responseWords (resultBytes i s) := by
  rw [exec_inv h, List.length_append, responseFrame_length, replyOf_bytes_length]

/-- R22, R47: a command reads neither the ports nor the outside world: run behind another command stream, it answers
the same with that stream left behind. -/
theorem exec_cmdq {i : Instr} {s t : State} (h : exec i s = .next t) (q : List Word) :
    exec i { s with cmdq := q } = .next { t with cmdq := q } := by
  rw [exec_inv h, exec_next]; rfl

/-! Runs of several commands. -/

theorem execAll_append (xs ys : List Instr) (s : State) :
    execAll (xs ++ ys) s =
      match execAll xs s with
      | .next t => execAll ys t
      | .fault r => .fault r
      | .refused r => .refused r := by
  induction xs generalizing s with
  | nil => rfl
  | cons i xs ih => rw [List.cons_append, execAll, exec_next]; simp only [execAll, exec_next, ih]

end Sys2Proof.Machine
end

