-- ==== Sys2Proof/Laws/Engine.lean ====
section
/-! SUPPORT. What one step can do: the inversion lemmas of the engine's step, of the outside world's turns, and of
`step`. -/

namespace Sys2Proof.Machine

theorem fits_iff (s : State) (k : Nat) :
    s.fits k = true ↔ s.rspq.length + responseWords k ≤ Config.rspFifoDepth := decide_eq_true_iff

/-- Everything the engine's step can answer: a command run behind its frame, an illegal frame answered, or a hold. -/
theorem engineStep_cases (s : State) :
    (∃ i rest, decodeFrame s.cmdq = .ok (i, rest) ∧ s.fits (resultBytes i s) = true ∧
      engineStep s = exec i (s.consume rest)) ∨
    (∃ cause h rest, decodeFrame s.cmdq = .error (.illegal cause h rest) ∧ s.fits 0 = true ∧
      engineStep s = .next (rejectFrame h rest s)) ∨
    (∃ r, engineStep s = .fault r) := by
  unfold engineStep
  split
  · exact .inr (.inr ⟨_, rfl⟩)
  · exact .inr (.inr ⟨_, rfl⟩)
  · rename_i cause h rest e
    cases hf : s.fits 0
    · exact .inr (.inr ⟨_, by rw [if_neg (by simp)]⟩)
    · exact .inr (.inl ⟨_, _, _, e, rfl, by rw [if_pos rfl]⟩)
  · rename_i i rest e
    cases hf : s.fits (resultBytes i s)
    · exact .inr (.inr ⟨_, by rw [if_neg (by simp)]⟩)
    · exact .inl ⟨_, _, e, hf, by rw [if_pos rfl]⟩

/-- When the engine's step answers a next state. -/
theorem engineStep_next {s t : State} (h : engineStep s = .next t) :
    (∃ i rest, decodeFrame s.cmdq = .ok (i, rest) ∧ s.fits (resultBytes i s) = true ∧
      exec i (s.consume rest) = .next t) ∨
    (∃ cause hd rest, decodeFrame s.cmdq = .error (.illegal cause hd rest) ∧ s.fits 0 = true ∧
      t = rejectFrame hd rest s) := by
  rcases engineStep_cases s with ⟨i, rest, e, f, hs⟩ | ⟨cause, hd, rest, e, f, hs⟩ | ⟨r, hs⟩
  · exact .inl ⟨i, rest, e, f, hs ▸ h⟩
  · rw [hs] at h; cases h; exact .inr ⟨cause, hd, rest, e, f, rfl⟩
  · rw [hs] at h; cases h

/-- R205: the engine's step leaves the outside world as it is: a holding host's turn stays next. -/
theorem engineStep_env {s t : State} (h : engineStep s = .next t) : t.env = s.env := by
  rcases engineStep_next h with ⟨i, rest, -, -, he⟩ | ⟨cause, hd, rest, -, -, rfl⟩
  · rw [exec_inv he]; rfl
  · rfl

/-- The engine refuses nothing. -/
theorem engineStep_not_refused (s : State) (r : Refusal) : engineStep s ≠ .refused r := by
  rcases engineStep_cases s with ⟨i, rest, -, -, hs⟩ | ⟨_, _, _, -, -, hs⟩ | ⟨_, hs⟩
  · rw [hs, exec_next]; exact fun h => nomatch h
  · rw [hs]; exact fun h => nomatch h
  · rw [hs]; exact fun h => nomatch h

theorem engineTurn_next {s t : State} (h : engineTurn s = .next t) : t = s ∨ engineStep s = .next t := by
  unfold engineTurn at h
  split at h
  · cases h; exact .inr (by assumption)
  · cases h; exact .inl rfl
  · cases h

/-- Everything a step can do when it answers a next state. -/
theorem step_next {s t : State} (h : step s = .next t) :
    engineStep s = .next t ∨
    (∃ rest, s.env.turns = .engine :: rest ∧
      (t = s.withTurns rest ∨ engineStep (s.withTurns rest) = .next t)) ∨
    (∃ host w rest, s.env.turns = .push host w :: rest ∧ s.cmdq.length < Config.cmdFifoDepth ∧
      s.interleaves host = false ∧ t = (s.withTurns rest).append host w) ∨
    (∃ w ws rest, s.env.turns = .pop :: rest ∧ s.rspq = w :: ws ∧ t = (s.withTurns rest).remove w ws) ∨
    (∃ rest, s.env.turns = .reset :: rest ∧ t = (s.withTurns rest).resetBlock) := by
  unfold step at h
  split at h
  · exact .inl h
  · rename_i turn rest hT
    cases turn with
    | push host w =>
      simp only [turnStep] at h
      split at h
      · exact .inl h
      · rename_i hl
        split at h
        · cases h
        · rename_i hi
          cases h
          exact .inr (.inr (.inl ⟨host, w, rest, hT, by omega, by simpa using hi, rfl⟩))
    | pop =>
      simp only [turnStep] at h
      split at h
      · exact .inl h
      · rename_i w ws e
        cases h
        exact .inr (.inr (.inr (.inl ⟨w, ws, rest, hT, e, rfl⟩)))
    | engine =>
      exact .inr (.inl ⟨rest, hT, engineTurn_next h⟩)
    | reset =>
      cases h
      exact .inr (.inr (.inr (.inr ⟨rest, hT, rfl⟩)))

end Sys2Proof.Machine
end

