-- ==== Sys2Proof/Laws/Host.lean ====
section
/-! SUPPORT. The frame tracker of the command port (R53): whole frames leave nothing open. -/

namespace Sys2Proof.Machine

/-- A run of exactly the missing data words closes the frame. -/
theorem foldl_trackWord_data (d tail : List Word) :
    (d ++ tail).foldl trackWord d.length = tail.foldl trackWord 0 := by
  induction d with
  | nil => rfl
  | cons w d ih =>
    rw [List.cons_append, List.foldl_cons, List.length_cons, trackWord, if_neg (by omega), Nat.add_sub_cancel, ih]

/-- Behind a whole frame the stream starts anew. -/
theorem openWords_frame {h : Word} {d : List Word} (hd : d.length = dataWords h) (tail : List Word) :
    openWords (h :: d ++ tail) = openWords tail := by
  rw [openWords, List.cons_append, List.foldl_cons, trackWord, if_pos rfl, ← hd, foldl_trackWord_data]; rfl

/-- Too few data words leave the frame open. -/
theorem openWords_partial {h : Word} {d : List Word} (hd : d.length < dataWords h) :
    openWords (h :: d) = dataWords h - d.length := by
  rw [openWords, List.foldl_cons, trackWord, if_pos rfl]
  generalize dataWords h = k at hd
  induction d generalizing k with
  | nil => rfl
  | cons w d ih =>
    rw [List.length_cons] at hd ⊢
    rw [List.foldl_cons, trackWord, if_neg (by omega), ih (k - 1) (by omega)]; omega

end Sys2Proof.Machine
end

