-- ==== Sys2Proof/Laws/Message.lean ====
section
/-! SUPPORT. What a channel holds of a message: INIT starts with the empty one, FEED appends to it, FINAL turns the
hash words into the message's hash. The invariant's lemmas, one for each update of a channel. -/

namespace Sys2Proof.Machine

variable {n : Nat} (A : Algo n)

/-- R29 (I-d): a new instance holds the empty message. -/
theorem Channel.create_holds : (Channel.create A).Holds A [] := ⟨rfl, rfl, rfl, rfl⟩

/-- R29 (I-c), (I-e): accepting data appends it to the message. -/
theorem Channel.accept_holds {ch : Channel n} {m : List Byte} (h : ch.Holds A m) (d : List Byte) :
    (ch.accept A d).Holds A (m ++ d) := by
  obtain ⟨h1, h2, h3, h4⟩ := h
  refine ⟨?_, ?_, ?_, ?_⟩
  · simp only [Channel.accept]
    rw [← BitVec.toNat_inj, addLength_toNat, h1, BitVec.toNat_ofNat, BitVec.toNat_ofNat, List.length_append]; omega
  · simp only [Channel.accept, absorb_spec, h2]; rw [← drop_blocks_append]
  · simp only [Channel.accept, absorb_spec, h2, h3]; rw [← List.foldl_append, ← fullBlocks_append]
  · simp only [Channel.accept, h4, lengthCarries, h1, BitVec.toNat_ofNat, List.length_append]
    rw [Bool.eq_iff_iff]; simp only [Bool.or_eq_true, decide_eq_true_eq]; omega

/-- R110: finishing a channel that holds a message leaves the message's hash. -/
theorem Channel.finish_holds {ch : Channel n} {m : List Byte} (h : ch.Holds A m) :
    (ch.finish A).H = messageHash A m := by
  obtain ⟨h1, h2, h3, -⟩ := h
  simp only [Channel.finish, h1, h2, h3, fold_padded]; rfl

/-- R29: a channel that meets the invariant and is open holds some message. -/
theorem Channel.Inv.holds_of_open {ch : Channel n} (h : ch.Inv A) (ho : ch.phase.isOpen = true) : ∃ m, ch.Holds A m := by
  unfold Channel.Inv at h
  split at h
  · rename_i e; rw [e] at ho; cases ho
  · exact ⟨_, h⟩
  · exact h
  · rename_i e; rw [e] at ho; cases ho

end Sys2Proof.Machine
end

