-- ==== Sys2Proof/Laws/PerInstr.lean ====
section
/-! SUPPORT. One lemma per constructor of Instr for each family that LAWS.json names. -/

namespace Sys2Proof.Laws.LegalEncoding

/-- R62, R66: the frame a well-formed instruction encodes to begins with a legal header of its own operation and
channel, and has exactly the words that header announces. -/
def Statement (i : Instr) : Prop :=
  i.wf = true → ∃ h, (encode i).head? = some h ∧ decodeHeader h = .ok (i.opcode, i.chan) ∧ (encode i).length = frameLen h

theorem of_parts (i : Instr) : Statement i := fun hw => by
  have hl := i.wf_iff.1 hw
  refine ⟨_, rfl, decodeHeader_headerWord _ _ hl (i.hasPayload_or_data_nil.imp_right fun e => by rw [e]; rfl), ?_⟩
  rw [encode, List.length_cons, packWords_length, frameLen, dataWords_headerWord _ _ hl]; omega

theorem init (c : Chan) : Statement (.init c) := of_parts _

theorem feed (c : Chan) (data : List Byte) : Statement (.feed c data) := of_parts _

theorem final (c : Chan) : Statement (.final c) := of_parts _

theorem digest (c : Chan) (data : List Byte) : Statement (.digest c data) := of_parts _

theorem dlen (c : Chan) : Statement (.dlen c) := of_parts _

theorem status (c : Chan) : Statement (.status c) := of_parts _

end Sys2Proof.Laws.LegalEncoding
end

