-- ==== Sys2Proof/Tests/Slice0.lean ====
section
/-! SUPPORT. The model's own tests: ill-formed terms refused, words written out from the spec's encoding, single steps
against the spec's vectors (95_test_vectors.md, by section), and a witness for every statement with hypotheses. -/

namespace Sys2Proof.Tests

open Sys2Proof.Machine

/-! Small states. -/

def none0 : Channel 5 := { phase := .none, H := Vector.replicate 5 0, pend := [], total := 0, lenwrap := false }
def none1 : Channel 8 := { phase := .none, H := Vector.replicate 8 0, pend := [], total := 0, lenwrap := false }
def created0 : Channel 5 := Channel.create algo1
def created1 : Channel 8 := Channel.create algo256
def fed0 (pend : List Byte) (total : Word64) : Channel 5 := { created0 with phase := .updating, pend, total }
def fed1 (pend : List Byte) (total : Word64) : Channel 8 := { created1 with phase := .updating, pend, total }
def done0 (lenwrap : Bool) : Channel 5 := { none0 with phase := .finalized, lenwrap }
def done1 : Channel 8 := { none1 with phase := .finalized }

def env (turns : List Turn) : Env := { turns, received := [], tailHost := 0, draws := 0 }

/-- The block with these channels and this command stream, nothing scheduled. -/
def mk (ch0 : Channel 5) (ch1 : Channel 8) (cmdq : List Word) : State := { ch0, ch1, cmdq, rspq := [], env := env [] }

/-- The block with this schedule. -/
def scheduled (turns : List Turn) (cmdq rspq : List Word) : State :=
  { ch0 := none0, ch1 := none1, cmdq, rspq, env := env turns }

def nextOf : Host.Outcome State Fault Refusal → Option State
  | .next s => some s
  | .fault _ => none
  | .refused _ => none

/-- What one step answers at the response port. -/
def answer (ch0 : Channel 5) (ch1 : Channel 8) (cmdq : List Word) : Option (List Word) :=
  (nextOf (step (mk ch0 ch1 cmdq))).map State.rspq

/-! WellFormed: a payload longer than COUNT can say (R9, R62). -/

theorem test_wf_refuses_long_feed : (Instr.feed .sha1 (List.replicate 65536 0)).wf = false :=
  decide_eq_false (by rw [Instr.data, List.length_replicate]; decide)
theorem test_wf_refuses_long_digest : (Instr.digest .sha256 (List.replicate 65536 0)).wf = false :=
  decide_eq_false (by rw [Instr.data, List.length_replicate]; decide)
theorem test_wf_accepts_longest_feed : (Instr.feed .sha256 (List.replicate 65535 0)).wf = true :=
  decide_eq_true (by rw [Instr.data, List.length_replicate]; decide)

/-! Decoding: OPCODE, CHAN, RSV, COUNT written out field by field (R62), data words byte by byte (R63). -/

theorem test_decode_init :
    decodeFrame [(0b00000001#8 ++ 0b0001#4 ++ 0b0000#4 ++ 0b0000000000000000#16 : BitVec 32)] =
      .ok (.init .sha256, []) := by decide
theorem test_decode_feed :
    decodeFrame [(0b00000010#8 ++ 0b0000#4 ++ 0b0000#4 ++ 0b0000000000000101#16 : BitVec 32),
        (0x61#8 ++ 0x62#8 ++ 0x63#8 ++ 0x64#8 : BitVec 32), (0x65#8 ++ 0xFF#8 ++ 0xEE#8 ++ 0xDD#8 : BitVec 32)] =
      .ok (.feed .sha1 [0x61, 0x62, 0x63, 0x64, 0x65], []) := by decide
theorem test_decode_final :
    decodeFrame [(0b00000011#8 ++ 0b0000#4 ++ 0b0000#4 ++ 0b0000000000000000#16 : BitVec 32), 7] =
      .ok (.final .sha1, [7]) := by decide
theorem test_decode_digest :
    decodeFrame [(0b00000100#8 ++ 0b0001#4 ++ 0b0000#4 ++ 0b0000000000000011#16 : BitVec 32),
        (0x61#8 ++ 0x62#8 ++ 0x63#8 ++ 0x00#8 : BitVec 32), 9] =
      .ok (.digest .sha256 [0x61, 0x62, 0x63], [9]) := by decide
theorem test_decode_dlen :
    decodeFrame [(0b00000101#8 ++ 0b0000#4 ++ 0b0000#4 ++ 0b0000000000000000#16 : BitVec 32)] =
      .ok (.dlen .sha1, []) := by decide
theorem test_decode_status :
    decodeFrame [(0b00000110#8 ++ 0b0001#4 ++ 0b0000#4 ++ 0b0000000000000000#16 : BitVec 32)] =
      .ok (.status .sha256, []) := by decide

/-- Section 2.11: the causes of R66, one by one. -/
theorem test_illegal_causes :
    decodeHeader 0xFF000000 = .error .opcode ∧ decodeHeader 0x01010000 = .error .reservedField ∧
    decodeHeader 0x01F00000 = .error .channel ∧ decodeHeader 0x05100004 = .error .count := by decide
theorem test_decode_table_words :
    decodeTableWord 32 0x05100000 = some (.dlen .sha256) ∧ decodeTableWord 32 0x07000000 = none ∧
    decodeTableWord 64 0x6162630002000003 = some (.feed .sha1 [0x61, 0x62, 0x63]) ∧
    decodeTableWord 32 0x04000005 = some (.digest .sha1 [0, 0, 0, 0, 0]) := by decide
/-- A placed table word runs as the first instruction after reset. -/
theorem test_placed_word_runs :
    (nextOf (step (State.reset.withFetchWord 32 0x05100000))).map State.rspq = some [0x00100004, 0x00000020] := by decide

/-! INIT (section 2.6). -/

theorem test_init_discards_message :
    nextOf (step (mk (fed0 [0x61, 0x62, 0x63] 24) none1 [0x01000000])) =
      some { mk { phase := .created, H := #v[0x67452301, 0xEFCDAB89, 0x98BADCFE, 0x10325476, 0xC3D2E1F0], pend := [],
                  total := 0, lenwrap := false } none1 [] with rspq := [0x00000000] } := by decide
theorem test_init_clears_lenwrap :
    (nextOf (step (mk (done0 true) none1 [0x01000000]))).map (fun s => (s.ch0.lenwrap, s.ch0.phase)) =
      some (false, .created) := by decide

/-! FEED (section 2.7). -/

theorem test_feed_ignores_unused_lanes :
    nextOf (step (mk created0 none1 [0x02000001, 0x78FFFFFF])) =
      some { mk (fed0 [0x78] 8) none1 [] with rspq := [0x00000000] } := by decide
/-- The length wrap: one compression, `pend = 7A`, `total = 8`, the flag set. -/
theorem test_feed_length_wraps :
    (nextOf (step (mk (fed0 (List.replicate 62 0) 0xFFFFFFFFFFFFFFF0) none1 [0x02000003, 0x78797A00]))).map
      (fun s => (s.ch0.pend, s.ch0.total, s.ch0.lenwrap, s.rspq)) = some ([0x7A], 8, true, [0x00000000]) := by
  decide +kernel

/-! FINAL (section 2.8). -/

theorem test_final_of_empty_message :
    answer created0 none1 [0x03000000] =
      some [0x00000014, 0xDA39A3EE, 0x5E6B4B0D, 0x3255BFEF, 0x95601890, 0xAFD80709] := by decide +kernel
theorem test_final_without_instance :
    nextOf (step (mk none0 none1 [0x03100000])) = some { mk none0 none1 [] with rspq := [0x01100000] } := by decide

/-! DIGEST (sections 1, 2.5, 2.9). -/

theorem test_digest_sha256_abc :
    answer none0 (fed1 [0x61] 8) [0x04100003, 0x61626300] =
      some [0x00100020, 0xBA7816BF, 0x8F01CFEA, 0x414140DE, 0x5DAE2223, 0xB00361A3, 0x96177A9C, 0xB410FF61,
        0xF20015AD] := by decide +kernel
/-- 56 bytes: the length field no longer fits in the first block. -/
theorem test_digest_sha1_56_bytes :
    answer (done0 false) none1 (0x04000038 :: List.replicate 14 0x61616161) =
      some [0x00000014, 0xC2DB330F, 0x6083854C, 0x99D4B5BF, 0xB6E8F29F, 0x201BE699] := by decide +kernel

/-! DLEN and STATUS (section 2.10). -/

theorem test_dlen : answer none0 none1 [0x05000000] = some [0x00000004, 0x00000014] := by decide
theorem test_dlen_sha256 : answer none0 none1 [0x05100000] = some [0x00100004, 0x00000020] := by decide
theorem test_status_pending :
    answer (fed0 (List.replicate 63 0) 504) none1 [0x06000000] = some [0x00000004, 0x00003F02] := by decide
theorem test_status_lenwrap : answer (done0 true) none1 [0x06000000] = some [0x00000004, 0x00000007] := by decide

/-! Illegal frames (section 2.11) and reset (program P5). -/

theorem test_illegal_channel :
    nextOf (step (mk none0 none1 [0x01200000])) = some { mk none0 none1 [] with rspq := [0x03200000] } := by decide
theorem test_illegal_count_consumes_data :
    nextOf (step (mk created0 none1 [0x03000001, 0xDEADBEEF, 0x06000000])) =
      some { mk created0 none1 [0x06000000] with rspq := [0x03000000] } := by decide
theorem test_reset_step :
    (nextOf (step { mk none0 (fed1 [0x61, 0x62, 0x63] 24) [0x06100000] with env := env [.reset] })).map
      (fun s => (s.ch1.phase, s.ch1.pend, s.cmdq, s.rspq)) = some (.none, [], [], []) := by decide

/-! The compression steps (sections 2.1 to 2.3). -/

theorem test_mixing :
    choose 0x12345678 0x9ABCDEF0 0x0F0F0F0F = 0x1F3F5F77 ∧ parity 0x12345678 0x9ABCDEF0 0x0F0F0F0F = 0x87878787 ∧
    majority 0x12345678 0x9ABCDEF0 0x0F0F0F0F = 0x1A3C5E78 := by decide
theorem test_rotations :
    rotl 1 0x80000001 = 0x00000003 ∧ rotl 5 0x12345678 = 0x468ACF02 ∧ rotl 30 0x9ABCDEF0 = 0x26AF37BC := by decide
theorem test_sigmas :
    bigSigma0 0x12345678 = 0x66146474 ∧ bigSigma1 0x12345678 = 0x3561ABDA ∧ smallSigma0 0x12345678 = 0xE7FCE6EE ∧
    smallSigma1 0x12345678 = 0xA1F78649 ∧ smallSigma0 0xFFFFFFFF = 0x1FFFFFFF ∧
    smallSigma1 0xFFFFFFFF = 0x003FFFFF := by decide
/-- The schedules of `Pad("abc")`. -/
theorem test_schedules :
    (schedule1 ([0x61, 0x62, 0x63, 0x80] ++ List.replicate 59 0 ++ [0x18])).getD 79 0 = 0x822E0879 ∧
    (schedule256 ([0x61, 0x62, 0x63, 0x80] ++ List.replicate 59 0 ++ [0x18])).getD 63 0 = 0x12B1EDEB := by
  decide +kernel
/-- The final addition apart from the initial value. -/
theorem test_compress1_zero_hash :
    compress1 (Vector.replicate 5 0) (List.replicate 64 0xFF) =
      #v[0xD21FA547, 0x30867DE7, 0x4C374871, 0xC1865E49, 0x1ECE2C16] := by decide +kernel
theorem test_compress256_zero_hash :
    compress256 (Vector.replicate 8 0) (List.replicate 64 0xFF) =
      #v[0x5081B30E, 0xFA9924A2, 0x8412D8AA, 0x28BB0C93, 0xDA147A5A, 0xD8E1F92B, 0x5AF1210D, 0x57081603] := by
  decide +kernel
/-- R151: the constants are the first 32 fractional bits of the cube roots of the first 64 primes: entry `k` of prime
`p` is the one with `(k + 2^32 q)^3 ≤ 2^96 p < (k + 1 + 2^32 q)^3`, `q` the cube root's whole part. -/
theorem test_k256_cube_roots :
    ((List.range 312).filter fun p => 2 ≤ p ∧ ∀ d ∈ List.range 18, 2 ≤ d → d < p → p % d ≠ 0).zip k256Table |>.all
      (fun pk => (List.range 7).any fun q =>
        decide ((pk.2.toNat + 2 ^ 32 * q) ^ 3 ≤ 2 ^ 96 * pk.1 ∧ 2 ^ 96 * pk.1 < (pk.2.toNat + 1 + 2 ^ 32 * q) ^ 3)) := by
  decide +kernel
/-- R150: the SHA-256 initial value: the square roots of the first 8 primes, likewise. -/
theorem test_iv256_square_roots :
    ([2, 3, 5, 7, 11, 13, 17, 19].zip iv256.toList).all
      (fun pk => (List.range 5).any fun q =>
        decide ((pk.2.toNat + 2 ^ 32 * q) ^ 2 ≤ 2 ^ 64 * pk.1 ∧ 2 ^ 64 * pk.1 < (pk.2.toNat + 1 + 2 ^ 32 * q) ^ 2)) := by
  decide +kernel

/-! Witnesses: for every statement with hypotheses, a state and operands that meet them together. A statement's own
docstring says what it states; here only the hypotheses are met, each clause at a boundary where it has one. -/

/-- A response port with room for 9 words and no more. -/
def roomForNine : List Word := List.replicate Config.rspFifoExtra 0

theorem witness_DecodeEncodeRoundTrip :
    (Instr.digest .sha256 (List.replicate 65535 0xA5)).wf = true ∧ (Instr.init .sha1).wf = true :=
  ⟨decide_eq_true (by rw [Instr.data, List.length_replicate]; decide), by decide⟩

theorem witness_DecodedFramesAreWholeAndWellFormed :
    decodeFrame [0x02100005, 0x61626364, 0x65000000, 9] = .ok (.feed .sha256 [0x61, 0x62, 0x63, 0x64, 0x65], [9]) := by
  decide

theorem witness_HeadersDecodeByTheMaskTable :
    (0x0210FFFF : Word) &&& 0xFFEF0000 = 0x02000000 ∧
    (∀ r ∈ opcodeTable, (0x02010000 : Word) &&& r.mask ≠ r.pattern) := by decide

/-- The last byte of a full frame; the unused lane of a 3-byte payload. -/
theorem witness_PayloadBytesAndUnusedLanes :
    (List.replicate 16384 (0 : Word)).length = (65535 + 3) / 4 ∧ 4 * 16383 + 2 < 65535 ∧
    ([] : List Word).length + 1 = ((0x02000003 : Word).toNat % 2 ^ 16 + 3) / 4 ∧
    (0x616263FF : Word) >>> (8 * (4 * 1 - 3)) = (0x61626300 : Word) >>> (8 * (4 * 1 - 3)) :=
  ⟨List.length_replicate, by decide, by decide, by decide⟩

/-- A FINAL whose 9 response words just fit, with any schedule. -/
theorem witness_StepRunsTheDecodedCommand (turns : List Turn) :
    let s : State := { mk none0 created1 [0x03100000, 0x06000000] with rspq := roomForNine, env := env turns }
    decodeFrame s.cmdq = .ok (.final .sha256, [0x06000000]) ∧
    s.rspq.length + 1 + (resultBytes (.final .sha256) s + 3) / 4 ≤ Config.rspFifoDepth ∧
    s.env.turns = turns := by
  refine ⟨show decodeFrame [0x03100000, 0x06000000] = _ by decide, ?_, rfl⟩
  simp only [roomForNine, List.length_replicate, resultBytes, State.phaseOf, mk, created1, Channel.create, Phase.isOpen,
    if_true, digestLength, Config.rspFifoDepth]
  omega

/-- An illegal frame of two words and a response port with room for one, with any schedule. -/
theorem witness_IllegalFramesAreConsumedAndAnswered (turns : List Turn) :
    let s : State := scheduled turns [0x07000002, 0x41420000, 0x06000000] (List.replicate (Config.rspFifoExtra + 8) 0)
    s.env.turns = turns ∧ s.cmdq = 0x07000002 :: [0x41420000] ++ [0x06000000] ∧
    ([0x41420000] : List Word).length = ((0x07000002 : Word).toNat % 2 ^ 16 + 3) / 4 ∧
    legalHeader 0x07000002 = false ∧ s.rspq.length + 1 ≤ Config.rspFifoDepth := by
  refine ⟨rfl, rfl, by decide, by decide, ?_⟩
  simp only [scheduled, List.length_replicate, Config.rspFifoDepth]
  omega

/-- No word; a header that lacks its last data word; and both with the engine's turn next. -/
theorem witness_EngineHoldsOnIncompleteFrame :
    (scheduled [] [] []).cmdq = [] ∧ (scheduled [] [] []).env.turns = [] ∧
    (scheduled [.engine] [] []).cmdq = [] ∧ (scheduled [.engine] [] []).env.turns = [.engine] ∧
    (scheduled [] [0x02000005, 0x61626364] []).cmdq = 0x02000005 :: [0x61626364] ∧
    ([0x61626364] : List Word).length < ((0x02000005 : Word).toNat % 2 ^ 16 + 3) / 4 ∧
    (scheduled [.engine] [0x02000005, 0x61626364] []).env.turns = [.engine] := by decide

/-- One word too few for a FINAL and a full response port before an illegal frame, both with any schedule; a full
command port, its head frame an INIT that the engine runs; an empty response port, likewise. -/
theorem witness_BackPressureHolds (turns : List Turn) :
    (let s : State := { mk none0 created1 [0x03100000] with
       rspq := List.replicate (Config.rspFifoExtra + 1) 0, env := env turns }
     s.env.turns = turns ∧ decodeFrame s.cmdq = .ok (.final .sha256, []) ∧
     Config.rspFifoDepth < s.rspq.length + 1 + (resultBytes (.final .sha256) s + 3) / 4) ∧
    (let s := scheduled turns [0x01200000] (List.replicate Config.rspFifoDepth 0)
     s.env.turns = turns ∧ decodeFrame s.cmdq = .error (.illegal .channel 0x01200000 []) ∧
     Config.rspFifoDepth < s.rspq.length + 1) ∧
    (let s := scheduled [.push 1 7] (0x01000000 :: List.replicate Config.cmdFifoExtra 0) []
     s.env.turns = [.push 1 7] ∧ Config.cmdFifoDepth ≤ s.cmdq.length ∧ (nextOf (engineStep s)).isSome = true) ∧
    (let s := scheduled [.pop] [0x01000000] []
     s.env.turns = [.pop] ∧ s.rspq = [] ∧ (nextOf (engineStep s)).isSome = true) := by
  refine ⟨⟨rfl, show decodeFrame [0x03100000] = _ by decide, ?_⟩, ⟨rfl, show decodeFrame [0x01200000] = _ by decide, ?_⟩,
    ⟨rfl, ?_, ?_⟩, rfl, rfl, by decide⟩
  · simp only [List.length_replicate, resultBytes, State.phaseOf, mk, created1, Channel.create, Phase.isOpen, if_true,
      digestLength, Config.rspFifoDepth]
    omega
  · simp only [scheduled, List.length_replicate]; omega
  · simp only [scheduled, List.length_cons, List.length_replicate, Config.cmdFifoDepth]; omega
  · rfl

/-- A turn given to the engine in which the response port grows, and one in which the engine holds. Also of
`ErrorsChangeNothing`: both first steps answer a status other than OK. -/
theorem witness_OneResponseFramePerCommandFrame :
    nextOf (step (scheduled [.engine] [0x03100000] [])) = some (scheduled [] [] ([] ++ [0x01100000])) ∧
    nextOf (step (scheduled [.engine] [] [])) = some (scheduled [] [] []) ∧
    (mk none0 none1 [0x03100000]).env.turns = [] ∧
    nextOf (step (mk none0 none1 [0x03100000])) = some { mk none0 none1 [] with rspq := [] ++ [0x01100000] } ∧
    (0x01100000 : Word).toNat / 2 ^ 24 ≠ 0 := by decide

/-- INIT, FEED "abc", FINAL: 8 response words. -/
theorem witness_EngineRunsTheCommandStreamInOrder :
    let is : List Instr := [.init .sha1, .feed .sha1 [0x61, 0x62, 0x63], .final .sha1]
    let s := mk none0 none1 [0x01000000, 0x02000003, 0x61626300, 0x03000000]
    s.env.turns = [] ∧ (∀ i ∈ is, i.wf = true) ∧ s.cmdq = is.flatMap encode ++ [] ∧
    s.rspq.length + (is.map mostResponseWords).sum ≤ Config.rspFifoDepth := by
  refine ⟨rfl, by decide, by decide, ?_⟩
  simp only [mk, List.map_cons, List.map_nil, List.sum_cons, List.sum_nil, mostResponseWords, digestLength,
    List.length_nil, Config.rspFifoDepth]
  omega

theorem witness_ReadyEngineHasAStep :
    (mk none0 none1 [0x02000003, 0x61626300]).env.turns = [] ∧ (mk none0 none1 [0x02000003, 0x61626300]).EngineReady :=
  ⟨rfl, _, _, rfl, by decide, by
    have : decodeFrame [0x02000003, 0x61626300] = .ok (.feed .sha1 [0x61, 0x62, 0x63], []) := by decide
    simp only [mk, this]; decide⟩

theorem witness_PlacedTableWordRunsNext : decodeTableWord 32 0x03100000 = some (.final .sha256) := by decide

/-- Every phase of both channels, for the clauses that ask for one: `FeedAbsorbsOnAnOpenChannel`,
`FeedingInPartsIsFeedingOnce`, `FinalPadsAndAnswersTheDigest`, `NoCommandFailsForItsData`, `LongFeedIsOneFeed`,
`FinalizedIsTerminal`. -/
theorem witness_phases :
    created0.phase = .created ∧ (fed0 [] 0).phase = .updating ∧ none0.phase = .none ∧ (done0 true).phase = .finalized ∧
    created1.phase = .created ∧ (fed1 [] 0).phase = .updating ∧ none1.phase = .none ∧ done1.phase = .finalized ∧
    (mk created0 none1 []).phaseOf .sha1 = .created ∧ (mk none0 (fed1 [] 0) []).phaseOf .sha256 = .updating ∧
    ([[], [0x61]] : List (List Byte)) ≠ [] := by decide

theorem witness_LengthCounterWrapsVisibly :
    (fed0 [] 0xFFFFFFFFFFFFFFF0).phase = .updating ∧ (fed0 [] 0xFFFFFFFFFFFFFFF0).total.toNat = 2 ^ 64 - 16 ∧
    (fed1 [] 0xFFFFFFFFFFFFFFF0).phase = .updating ∧ (fed1 [] 0xFFFFFFFFFFFFFFF0).total.toNat = 2 ^ 64 - 16 ∧
    ([0x78, 0x79, 0x7A] : List Byte).length = 3 := by decide

/-- `INIT 2` assembles, to an illegal header; a well-formed line. -/
theorem witness_AssemblerLinesAndPseudoInstructions :
    2 ≤ (0x2 : BitVec 4).toNat ∧ assemble .init 0x2 [] = some (0x01200000 :: []) ∧
    (Instr.feed .sha1 [0x61]).wf = true := by decide

theorem witness_PaddedTailSizes :
    (List.replicate 55 (0x61 : Byte)).length ≤ 55 ∧ 56 ≤ (List.replicate 56 (0x61 : Byte)).length ∧
    (List.replicate 63 (0x61 : Byte)).length ≤ 63 := by decide

/-- A finalized channel that INIT changes, and one that reset changes; and a FEED that it refuses. -/
theorem witness_FinalizedIsTerminal :
    (nextOf (step (mk (done0 true) none1 [0x01000000]))).map (fun t => decide (t.ch0 ≠ done0 true)) = some true ∧
    (nextOf (step (mk none0 done1 [0x01100000]))).map (fun t => decide (t.ch1 ≠ done1)) = some true ∧
    (nextOf (step { mk (done0 true) done1 [] with env := env [.reset] })).map
      (fun t => (t.ch0.phase, t.ch1.phase)) = some (.none, .none) ∧
    (mk (done0 true) none1 []).phaseOf (Instr.feed .sha1 []).chan = .finalized ∧
    (Instr.feed .sha1 []).opcode ≠ .init := by decide

theorem witness_StatusAnswersTheStatusWord : (fed0 (List.replicate 63 0) 504).pend.length ≤ 63 := by decide

/-- A FINAL and a DIGEST that succeed. -/
theorem witness_DigestLengthIsConstant (i : Instr) (h : i = .final .sha1 ∨ i = .digest .sha256 []) :
    (i.opcode = .final ∨ i.opcode = .digest) ∧ ∃ t rh rd, exec i (mk created0 none1 []) = .next t ∧
      t.rspq = (mk created0 none1 []).rspq ++ rh :: rd ∧ rh.toNat / 2 ^ 24 = 0 := by
  rcases h with rfl | rfl
  · exact ⟨.inl rfl, _, _, _, rfl, rfl, by decide⟩
  · exact ⟨.inr rfl, _, _, _, rfl, rfl, by decide⟩

theorem witness_PhaseTransitionTable :
    (mk none0 none1 [0x01010000]).env.turns = [] ∧
    decodeFrame (mk none0 none1 [0x01010000]).cmdq = .error (.illegal .reservedField 0x01010000 []) ∧
    nextOf (step (mk none0 none1 [0x01010000])) = some { mk none0 none1 [] with rspq := [0x03000000] } := by decide

/-- Also of `PhaseTransitionTable`: an open channel without a message, in a state that meets the invariant. -/
theorem witness_created_inv : (mk created0 none1 []).Inv ∧ (mk created0 none1 []).phaseOf .sha1 = .created :=
  ⟨⟨Channel.create_holds algo1, ⟨rfl, rfl⟩, Nat.zero_le _, Nat.zero_le _⟩, rfl⟩

/-- The longest and the shortest frames of FEED and DIGEST. -/
theorem witness_payload_frames :
    65535 ≤ 65535 ∧ (List.replicate 16384 (0 : Word)).length = (65535 + 3) / 4 ∧ ([] : List Word).length = (0 + 3) / 4 :=
  ⟨by decide, List.length_replicate, rfl⟩

/-- One command of each kind the clauses name, on each channel. -/
theorem witness_CommandsTouchOnlyTheirChannel :
    nextOf (exec (.status .sha1) (mk none0 none1 [])) = some { mk none0 none1 [] with rspq := [0x00000004, 0] } ∧
    (Instr.status .sha1).opcode = .status ∧ (Instr.status .sha1).chan = .sha1 ∧
    nextOf (exec (.final .sha256) (mk none0 none1 [])) = some { mk none0 none1 [] with rspq := [0x01100000] } ∧
    (Instr.final .sha256).opcode = .final ∧ (Instr.final .sha256).chan = .sha256 := by decide

theorem witness_ChannelsAreIndependent :
    (Instr.feed .sha1 [0x61]).chan ≠ (Instr.init .sha256).chan := by decide

theorem witness_CompressionStepsPerCommand :
    (List.replicate 63 (0 : Byte)).length ≤ 63 ∧ (List.replicate 65535 (0 : Byte)).length ≤ 65535 ∧
    (fed0 (List.replicate 63 0) 504).pend = List.replicate 63 0 ∧ (fed0 (List.replicate 63 0) 504).total = 504 :=
  ⟨by decide, by rw [List.length_replicate], rfl, rfl⟩

/-- Two states that differ in both unspecified values of both channels. -/
theorem witness_UnspecifiedValuesAreUnobservable :
    (mk none0 none1 [0x06000000]).Agrees
      (mk { none0 with H := iv1, total := 8 } { none1 with H := iv256, total := 8 } [0x06000000]) :=
  ⟨⟨rfl, rfl, rfl, fun h => absurd rfl h⟩, ⟨rfl, rfl, rfl, fun h => absurd rfl h⟩, rfl, rfl, rfl⟩

/-- Channel 0 has accepted "abc"; its FINAL is at the head of the command port. -/
theorem witness_EveryStepKeepsTheInvariant :
    (mk (fed0 [0x61, 0x62, 0x63] 24) none1 [0x03000000]).Inv ∧
    (nextOf (step (mk (fed0 [0x61, 0x62, 0x63] 24) none1 [0x03000000]))).isSome = true := by
  refine ⟨⟨?_, ⟨rfl, rfl⟩, ?_, ?_⟩, by decide +kernel⟩
  · exact ⟨[0x61, 0x62, 0x63], by decide, by decide, by decide, by decide⟩
  · simp only [mk, List.length_cons, List.length_nil, Config.cmdFifoDepth]; omega
  · simp only [mk, List.length_nil, Config.rspFifoDepth]; omega

/-- A channel with 63 bytes pending that meets the invariant. -/
theorem witness_InvariantBoundsThePendingBytes : (fed0 (List.replicate 63 0) 504).Inv algo1 :=
  ⟨List.replicate 63 0, by decide, by decide, by decide, by decide⟩

theorem witness_ResetValues : (scheduled [.reset, .pop] [7] [8]).env.turns = .reset :: [.pop] := rfl

/-- An append at an empty command port, and a removal of the only response word. -/
theorem witness_PortAccessesMoveOneWord :
    (scheduled [.push 3 7] [] []).env.turns = .push 3 7 :: [] ∧
    (scheduled [.push 3 7] [] []).cmdq.length < Config.cmdFifoDepth ∧ openWords (scheduled [.push 3 7] [] []).cmdq = 0 ∧
    (scheduled [.pop] [] [8]).env.turns = .pop :: [] ∧ (scheduled [.pop] [] [8]).rspq = 8 :: [] :=
  ⟨rfl, Nat.succ_pos _, rfl, rfl, rfl⟩

/-- Host 1 appends behind host 0's whole INIT and its FEED header; and at an empty port. -/
theorem witness_InterleavedFramesAreRefused :
    (let s := scheduled [.push 1 7] [0x01000000, 0x02000003] []
     s.env.turns = [.push 1 7] ∧ s.cmdq = [[0x01000000]].flatten ++ 0x02000003 :: [] ∧
     (∀ f ∈ [[(0x01000000 : Word)]], ∃ h' d, f = h' :: d ∧ d.length = dataWords h') ∧
     ([] : List Word).length < dataWords 0x02000003 ∧ 1 ≠ s.env.tailHost) ∧
    (scheduled [.push 1 7] [] []).cmdq.length < Config.cmdFifoDepth ∧
    (scheduled [.push 1 7] [] []).cmdq = ([] : List (List Word)).flatten := by
  refine ⟨⟨rfl, rfl, ?_, by decide, by decide⟩, Nat.succ_pos _, rfl⟩
  intro f hf
  rw [List.mem_singleton.mp hf]
  exact ⟨_, _, rfl, by decide⟩

/-- A run that fills the command port to the last word. -/
theorem witness_HostAppendsAWholeRun :
    let ws : List Word := List.replicate Config.cmdFifoDepth 0x01000000
    let s := scheduled (pushAll 2 ws) [] []
    s.env.turns = pushAll 2 ws ++ [] ∧ s.cmdq.length + ws.length ≤ Config.cmdFifoDepth ∧ openWords s.cmdq = 0 := by
  refine ⟨(List.append_nil _).symm, ?_, rfl⟩
  simp only [scheduled, List.length_replicate, List.length_nil]; omega

/-- A step with no append next; and an append that is refused. A port of one word (R10 allows it) never has an open
frame and room behind it, so the second needs a port of two. -/
theorem witness_OnlyInterleavedAppendsAreRefused :
    (∀ host w ts, (scheduled [] [] []).env.turns = .push host w :: ts →
      host = (scheduled [] [] []).env.tailHost ∨ openWords (scheduled [] [] []).cmdq = 0) ∧
    (1 < Config.cmdFifoDepth → step (scheduled [.push 1 7] [0x02000003] []) = .refused .interleavedFrame) := by
  refine ⟨fun _ _ _ h => (nomatch h), fun h => ?_⟩
  have hf : ¬ Config.cmdFifoDepth ≤ [(0x02000003 : Word)].length := by simp only [List.length_cons, List.length_nil]; omega
  exact (if_neg hf).trans rfl

theorem witness_MixingFunctionsBitByBit : 31 < 32 := by decide

theorem witness_RotationsAndSigmaFunctions : 0 < 1 ∧ 31 < 32 := by decide

/-- The first and last words of the schedules and rounds. -/
theorem witness_schedules_and_rounds : 15 < 16 ∧ 16 ≤ 16 ∧ 79 < 80 ∧ 63 < 64 := by decide

theorem witness_DataWordsAreScheduleWords : (List.replicate 16 (0x61626364 : Word)).length = 16 := by decide

end Sys2Proof.Tests
end

section
/-! SUPPORT. The commands on a channel named by its number (R8, R65): both channels behind one accessor, so that what a
command does is said and proved once for both. -/

namespace Sys2Proof

/-- R21: how many hash words a channel has. -/
def Chan.hashWords : Chan → Nat
  | .sha1 => 5
  | .sha256 => 8

/-- R8: the algorithm of a channel. -/
def Chan.algo : (c : Chan) → Machine.Algo c.hashWords
  | .sha1 => Machine.algo1
  | .sha256 => Machine.algo256

end Sys2Proof

namespace Sys2Proof.Machine

/-- R8: the channel of a number. -/
def State.channel (s : State) : (c : Chan) → Channel c.hashWords
  | .sha1 => s.ch0
  | .sha256 => s.ch1

/-- The state with one channel replaced. -/
def State.setChannel (s : State) : (c : Chan) → Channel c.hashWords → State
  | .sha1, ch => { s with ch0 := ch }
  | .sha256, ch => { s with ch1 := ch }

/-- R100: a reply of channel `c` carried out: the channel as the reply leaves it, and its response frame appended. -/
def State.applyReply (s : State) (c : Chan) (r : Reply c.hashWords) : State :=
  (s.setChannel c (r.channel (s.channel c))).respond r.status c.number r.bytes

/-- The reply to a command in state `s`. -/
def State.reply (s : State) (i : Instr) : Reply i.chan.hashWords :=
  commandReply i _ i.chan.algo (s.channel i.chan)

/-! What a reply changes and what it leaves. -/

section
variable (s : State) (c : Chan) (r : Reply c.hashWords)

@[simp] theorem State.applyReply_cmdq : (s.applyReply c r).cmdq = s.cmdq := by cases c <;> rfl

@[simp] theorem State.applyReply_env : (s.applyReply c r).env = s.env := by cases c <;> rfl

@[simp] theorem State.applyReply_rspq :
    (s.applyReply c r).rspq = s.rspq ++ responseFrame r.status c.number r.bytes := by cases c <;> rfl

@[simp] theorem State.applyReply_channel : (s.applyReply c r).channel c = r.channel (s.channel c) := by cases c <;> rfl

theorem State.applyReply_channel_of_ne {d : Chan} (h : d ≠ c) : (s.applyReply c r).channel d = s.channel d := by
  cases c with
  | sha1 =>
    cases d with
    | sha1 => exact absurd rfl h
    | sha256 => rfl
  | sha256 =>
    cases d with
    | sha1 => rfl
    | sha256 => exact absurd rfl h

end

/-- R8, R100: a command carries out its reply on the channel its header names. -/
theorem exec_eq_applyReply (i : Instr) (s : State) : exec i s = .next (s.applyReply i.chan (s.reply i)) := by
  rw [exec_eq_onChannel, State.reply]
  cases i.chan with
  | sha1 => exact onChannel_sha1 ..
  | sha256 => exact onChannel_sha256 ..

/-- R8: a command leaves the other channel as it is. -/
theorem exec_channel_of_ne {i : Instr} {s t : State} (h : exec i s = .next t) {d : Chan} (hd : d ≠ i.chan) :
    t.channel d = s.channel d := by
  rw [exec_eq_applyReply] at h; cases h; exact s.applyReply_channel_of_ne _ _ hd

/-- R100: what a command does to the channel it names is its reply. -/
theorem exec_channel {i : Instr} {s t : State} (h : exec i s = .next t) :
    t.channel i.chan = (s.reply i).channel (s.channel i.chan) := by
  rw [exec_eq_applyReply] at h; cases h; exact s.applyReply_channel _ _

/-- To show how a command relates each channel to what it was, it is enough to look at the reply on the channel it
names: the other channel is as it was. -/
theorem exec_channel_rel {i : Instr} {s t : State} (h : exec i s = .next t)
    (R : ∀ {n : Nat}, Channel n → Channel n → Prop) (hrefl : ∀ {n : Nat} (ch : Channel n), R ch ch)
    (hreply : R (s.channel i.chan) ((s.reply i).channel (s.channel i.chan))) (d : Chan) :
    R (s.channel d) (t.channel d) := by
  by_cases hd : d = i.chan
  · subst hd; rw [exec_channel h]; exact hreply
  · rw [exec_channel_of_ne h hd]; exact hrefl _

/-- R115, R173, R175: DIGEST, DLEN and STATUS leave the channel they name as it is. -/
theorem reply_channel_of_query {i : Instr} (hi : i.opcode = .digest ∨ i.opcode = .dlen ∨ i.opcode = .status)
    (s : State) : (s.reply i).channel (s.channel i.chan) = s.channel i.chan := by
  cases i with
  | digest c d => rfl
  | dlen c => rfl
  | status c => rfl
  | init c => simp [Instr.opcode] at hi
  | feed c d => simp [Instr.opcode] at hi
  | final c => simp [Instr.opcode] at hi

/-- R110, R111: FINAL, accepted or not, keeps the length and the wrap flag. -/
theorem finalCommand_keeps_length {n : Nat} (A : Algo n) (ch : Channel n) :
    ((finalCommand n A ch).channel ch).total = ch.total ∧ ((finalCommand n A ch).channel ch).lenwrap = ch.lenwrap := by
  cases h : ch.phase.isOpen with
  | true => rw [finalCommand_open A h]; exact ⟨rfl, rfl⟩
  | false => rw [finalCommand_closed A h]; exact ⟨rfl, rfl⟩

/-- R115, R173, R175: DIGEST, DLEN and STATUS leave both channels as they are. -/
theorem exec_query_channels {i : Instr} {s t : State} (h : exec i s = .next t)
    (hi : i.opcode = .digest ∨ i.opcode = .dlen ∨ i.opcode = .status) (d : Chan) : t.channel d = s.channel d :=
  exec_channel_rel h (fun a b => b = a) (fun _ => rfl) (reply_channel_of_query hi s) d

/-- R110: FINAL keeps the length and the wrap flag of both channels. -/
theorem exec_final_keeps_length {i : Instr} {s t : State} (h : exec i s = .next t) (hi : i.opcode = .final) (d : Chan) :
    (t.channel d).total = (s.channel d).total ∧ (t.channel d).lenwrap = (s.channel d).lenwrap := by
  refine exec_channel_rel h (fun a b => b.total = a.total ∧ b.lenwrap = a.lenwrap) (fun _ => ⟨rfl, rfl⟩) ?_ d
  cases i with
  | final c => exact finalCommand_keeps_length _ _
  | _ => cases hi

/-- Settles O33: a command's reply is carried out on the channel it names and appended to the response port. -/
theorem commandsTouchOnlyTheirChannel : Obligations.CommandsTouchOnlyTheirChannel := by
  intro i s t h
  have hports : t.cmdq = s.cmdq ∧ t.env = s.env ∧ ∃ frame, t.rspq = s.rspq ++ frame := by
    rw [exec_eq_applyReply] at h
    cases h
    exact ⟨s.applyReply_cmdq _ _, s.applyReply_env _ _, _, s.applyReply_rspq _ _⟩
  obtain ⟨hq, he, hr⟩ := hports
  refine ⟨hq, he, hr, fun hc => ?_, fun hc => ?_, fun hi => ?_, fun hi => ?_⟩
  · exact exec_channel_of_ne h (d := .sha256) (by rw [hc]; decide)
  · exact exec_channel_of_ne h (d := .sha1) (by rw [hc]; decide)
  · exact ⟨exec_query_channels h hi .sha1, exec_query_channels h hi .sha256⟩
  · obtain ⟨h0, w0⟩ := exec_final_keeps_length h hi .sha1
    obtain ⟨h1, w1⟩ := exec_final_keeps_length h hi .sha256
    exact ⟨h0, w0, h1, w1⟩

end Sys2Proof.Machine
end

section
/-! SUPPORT. Streaming on one channel (R16): INIT, any number of FEEDs, FINAL. -/

namespace Sys2Proof.Machine

/-! The channel after several FEEDs. -/

theorem Channel.foldl_accept_isOpen {n : Nat} (A : Algo n) {ch : Channel n} (h : ch.phase.isOpen = true)
    (parts : List (List Byte)) : (parts.foldl (Channel.accept A) ch).phase.isOpen = true := by
  induction parts generalizing ch with
  | nil => exact h
  | cons d parts ih => exact ih rfl

theorem Channel.foldl_accept_holds {n : Nat} (A : Algo n) {ch : Channel n} {m : List Byte} (h : ch.Holds A m)
    (parts : List (List Byte)) : (parts.foldl (Channel.accept A) ch).Holds A (m ++ parts.flatten) := by
  induction parts generalizing ch m with
  | nil => simpa using h
  | cons d parts ih => simpa using ih (Channel.accept_holds A h d)

/-! The three commands, exactly. -/

/-- R101: INIT replaces its channel by a new instance, whatever was there. -/
theorem exec_init (c : Chan) (s : State) :
    exec (.init c) s = .next (s.applyReply c (.done (Channel.create c.algo) [])) :=
  exec_eq_applyReply (.init c) s

/-- R103: FEED on an open channel accepts its payload. -/
theorem exec_feed_open {c : Chan} {s : State} (h : (s.channel c).phase.isOpen = true) (d : List Byte) :
    exec (.feed c d) s = .next (s.applyReply c (.done ((s.channel c).accept c.algo d) [])) := by
  have hreply : s.reply (.feed c d) = .done ((s.channel c).accept c.algo d) [] := feedCommand_open _ d h
  rw [exec_eq_applyReply, hreply]; rfl

/-- R110: FINAL on an open channel finishes it and answers the hash words. -/
theorem exec_final_open {c : Chan} {s : State} (h : (s.channel c).phase.isOpen = true) :
    exec (.final c) s = .next (s.applyReply c
      (.done ((s.channel c).finish c.algo) (serialize ((s.channel c).finish c.algo).H))) := by
  have hreply : s.reply (.final c) = .done ((s.channel c).finish c.algo) (serialize ((s.channel c).finish c.algo).H) :=
    finalCommand_open _ h
  rw [exec_eq_applyReply, hreply]; rfl

theorem execAll_cons_next {i : Instr} {s t : State} (h : exec i s = .next t) (is : List Instr) :
    execAll (i :: is) s = execAll is t := by rw [execAll, h]

theorem execAll_singleton (i : Instr) (s : State) : execAll [i] s = exec i s := by rw [execAll, exec_next]; rfl

theorem execAll_append_next {xs : List Instr} {s t : State} (h : execAll xs s = .next t) (ys : List Instr) :
    execAll (xs ++ ys) s = execAll ys t := by rw [execAll_append, h]

/-- R103: FEEDs on an open channel accept their payloads one after the other and leave the other channel alone. -/
theorem execAll_feeds {c : Chan} {s : State} (h : (s.channel c).phase.isOpen = true) (parts : List (List Byte)) :
    ∃ t f, execAll (parts.map (Instr.feed c)) s = .next t ∧ t.rspq = s.rspq ++ f ∧
      t.channel c = parts.foldl (Channel.accept c.algo) (s.channel c) ∧
      ∀ d, d ≠ c → t.channel d = s.channel d := by
  induction parts generalizing s with
  | nil => exact ⟨s, [], rfl, (List.append_nil _).symm, rfl, fun _ _ => rfl⟩
  | cons p parts ih =>
    have hfeed := exec_feed_open h p
    set u := s.applyReply c (.done ((s.channel c).accept c.algo p) [])
    have hu : u.channel c = (s.channel c).accept c.algo p := s.applyReply_channel c _
    obtain ⟨t, f, ht, hr, hc, hd⟩ := ih (s := u) (by rw [hu]; rfl)
    refine ⟨t, responseFrame .ok c.number [] ++ f, (execAll_cons_next hfeed _).trans ht, ?_, ?_, fun d hne => ?_⟩
    · rw [hr, s.applyReply_rspq, List.append_assoc]; rfl
    · rw [hc, hu]; rfl
    · rw [hd d hne, s.applyReply_channel_of_ne _ _ hne]

/-- R16, R101, R103, R110: on either channel INIT, FEEDs and FINAL answer the hash of the joined payloads and leave the
channel finalized with it. -/
theorem execAll_init_feeds_final (c : Chan) (s : State) (parts : List (List Byte)) :
    ∃ t f, execAll (.init c :: parts.map (Instr.feed c) ++ [.final c]) s = .next t ∧
      t.rspq = s.rspq ++ f ++ responseFrame .ok c.number (serialize (messageHash c.algo parts.flatten)) ∧
      (t.channel c).phase = .finalized ∧ (t.channel c).H = messageHash c.algo parts.flatten ∧
      ∀ d, d ≠ c → t.channel d = s.channel d := by
  have hinit := exec_init c s
  set s₁ := s.applyReply c (.done (Channel.create c.algo) [])
  have h₁ : s₁.channel c = Channel.create c.algo := s.applyReply_channel c _
  obtain ⟨s₂, f, hfeeds, hr, hc, hd⟩ := execAll_feeds (c := c) (s := s₁) (by rw [h₁]; rfl) parts
  rw [h₁] at hc
  have hopen : (s₂.channel c).phase.isOpen = true := by rw [hc]; exact Channel.foldl_accept_isOpen _ rfl parts
  have hhash : ((s₂.channel c).finish c.algo).H = messageHash c.algo parts.flatten := by
    rw [hc]; exact Channel.finish_holds _ (Channel.foldl_accept_holds _ (Channel.create_holds _) parts)
  have hrun : execAll (.init c :: parts.map (Instr.feed c) ++ [.final c]) s = exec (.final c) s₂ := by
    rw [List.cons_append, execAll_cons_next hinit, execAll_append_next hfeeds, execAll_singleton]
  refine ⟨_, responseFrame .ok c.number [] ++ f, hrun.trans (exec_final_open hopen), ?_, ?_, ?_, fun d hne => ?_⟩
  · rw [State.applyReply_rspq, hr, s.applyReply_rspq, ← hhash]; simp only [List.append_assoc]; rfl
  · rw [State.applyReply_channel]; rfl
  · rw [State.applyReply_channel]; exact hhash
  · rw [State.applyReply_channel_of_ne _ _ _ hne, hd d hne, s.applyReply_channel_of_ne _ _ hne]

/-- R70, R112: a digest's response frame is its header followed by the hash words. -/
theorem responseFrame_serialize (st : Status) (chan : BitVec 4) {n : Nat} (H : Vector Word n) :
    responseFrame st chan (serialize H) = responseHeader st chan (4 * n) :: H.toList := by
  rw [responseFrame, serialize_length, packWords_serialize]

/-- Settles O24: after the FEEDs the channel holds the joined message, which FINAL pads and hashes. -/
theorem streamedDigestIsTheMessageHash : Obligations.StreamedDigestIsTheMessageHash := by
  constructor
  · intro s parts
    obtain ⟨t, f, ht, hr, hp, hH, hd⟩ := execAll_init_feeds_final .sha1 s parts
    rw [responseFrame_serialize] at hr
    exact ⟨t, f, ht, hr, hp, hH, hd .sha256 (by decide)⟩
  · intro s parts
    obtain ⟨t, f, ht, hr, hp, hH, hd⟩ := execAll_init_feeds_final .sha256 s parts
    rw [responseFrame_serialize] at hr
    exact ⟨t, f, ht, hr, hp, hH, hd .sha1 (by decide)⟩

end Sys2Proof.Machine
end

section
/-! SUPPORT. The engine at the ports (R47, R61, R205): when it runs the head frame, when it holds, what a step of it
takes from the command port and adds to the response port. -/

namespace Sys2Proof

/-- R61, R69: the frame of a well-formed command decodes to it, whatever stands behind. -/
theorem decodeFrame_encode_append {i : Instr} (hw : i.wf = true) (rest : List Word) :
    decodeFrame (encode i ++ rest) = .ok (i, rest) := by
  have hl := i.wf_iff.1 hw
  have hh : decodeHeader (headerWord i.opcode.code i.chan.number i.data.length) = .ok (i.opcode, i.chan) :=
    decodeHeader_headerWord _ _ hl (i.hasPayload_or_data_nil.imp_right fun e => by rw [e]; rfl)
  have hn : dataWords (headerWord i.opcode.code i.chan.number i.data.length) = (packWords i.data).length := by
    rw [dataWords_headerWord _ _ hl, packWords_length]
  rw [encode, List.cons_append, decodeFrame_of_complete (by rw [hn, List.length_append]; omega), hh]
  simp only [hn, countField_headerWord _ _ hl, List.take_left, List.drop_left, payload_packWords,
    Instr.ofParts_parts]

/-- R61: a header with its data words, split off what stands behind them. -/
theorem frame_split {h : Word} {tail : List Word} (hl : dataWords h ≤ tail.length) :
    ∃ data, h :: tail = h :: data ++ tail.drop (dataWords h) ∧ data.length = dataWords h :=
  ⟨tail.take (dataWords h), by rw [List.cons_append, List.take_append_drop], List.length_take_of_le hl⟩

end Sys2Proof

namespace Sys2Proof.Machine

/-! The response port. -/

theorem digestLength_le (c : Chan) : digestLength c ≤ 32 := by cases c <;> decide

theorem responseWords_digestLength (c : Chan) : responseWords (digestLength c) = 1 + digestLength c / 4 := by
  cases c <;> rfl

/-- R72, log 4: the room a command asks for depends on the channels alone. -/
theorem resultBytes_eq_of_channels {s u : State} (h0 : u.ch0 = s.ch0) (h1 : u.ch1 = s.ch1) (i : Instr) :
    resultBytes i u = resultBytes i s := by
  cases i with
  | final c =>
    have hphase : u.phaseOf c = s.phaseOf c := by
      cases c with
      | sha1 => exact congrArg Channel.phase h0
      | sha256 => exact congrArg Channel.phase h1
    rw [resultBytes, resultBytes, hphase]
  | _ => rfl

/-- R72: no response has more than 32 result bytes. -/
theorem resultBytes_le (i : Instr) (s : State) : resultBytes i s ≤ 32 := by
  cases i with
  | final c =>
    simp only [resultBytes]
    split
    · exact digestLength_le c
    · exact Nat.zero_le 32
  | digest c d => exact digestLength_le c
  | _ => simp [resultBytes]

/-- R72: a response takes at most the words its command's row of the table allows. -/
theorem responseWords_le_mostResponseWords (i : Instr) (s : State) :
    responseWords (resultBytes i s) ≤ mostResponseWords i := by
  cases i with
  | final c =>
    simp only [resultBytes, mostResponseWords]
    split
    · exact (responseWords_digestLength c).le
    · exact Nat.le_add_right 1 _
  | digest c d => exact (responseWords_digestLength c).le
  | _ => simp [resultBytes, responseWords, wordsFor, mostResponseWords]

/-! Running and holding. -/

theorem engineStep_of_fits {s : State} {i : Instr} {rest : List Word} (e : decodeFrame s.cmdq = .ok (i, rest))
    (hf : s.fits (resultBytes i s) = true) : engineStep s = exec i (s.consume rest) := by
  simp only [engineStep, e, hf, if_true]

/-- R205: without room for the whole response the engine holds. -/
theorem engineStep_of_not_fits {s : State} {i : Instr} {rest : List Word} (e : decodeFrame s.cmdq = .ok (i, rest))
    (hf : s.fits (resultBytes i s) = false) : engineStep s = .fault .responsePortFull := by
  simp [engineStep, e, hf]

/-- R205: nor does it start an illegal frame without room for its answer. -/
theorem engineStep_of_illegal_not_fits {s : State} {cause : IllegalCause} {h : Word} {rest : List Word}
    (e : decodeFrame s.cmdq = .error (.illegal cause h rest)) (hf : s.fits 0 = false) :
    engineStep s = .fault .responsePortFull := by
  simp [engineStep, e, hf]

theorem fits_eq_false_iff (s : State) (k : Nat) :
    s.fits k = false ↔ Config.rspFifoDepth < s.rspq.length + 1 + (k + 3) / 4 := by
  rw [← Bool.not_eq_true, fits_iff, responseWords, wordsFor]; omega

/-- The engine does not read the schedule: where it holds, it holds under any other. -/
theorem engineStep_withTurns_fault {s : State} {r : Fault} (h : engineStep s = .fault r) (ts : List Turn) :
    engineStep (s.withTurns ts) = .fault r := by
  have hres (i : Instr) : resultBytes i (s.withTurns ts) = resultBytes i s := resultBytes_eq_of_channels rfl rfl i
  have hfits (k : Nat) : (s.withTurns ts).fits k = s.fits k := rfl
  simp only [engineStep, State.withTurns_cmdq, hres, hfits] at h ⊢
  split at h
  · exact h
  · exact h
  · split at h
    · cases h
    · rename_i hf; rw [if_neg hf]; exact h
  · split at h
    · rw [exec_next] at h; cases h
    · rename_i hf; rw [if_neg hf]; exact h

/-! The machine's step, by what is scheduled. -/

theorem step_of_no_turns {s : State} (h : s.env.turns = []) : step s = engineStep s := by rw [step, h]

theorem step_of_turn {s : State} {t : Turn} {ts : List Turn} (h : s.env.turns = t :: ts) :
    step s = turnStep t ts s := by rw [step, h]

/-- R204, R205: a held engine has no step when nothing is scheduled, and a turn given to it passes (log 3, 6). -/
theorem step_of_held {s : State} {r : Fault} (h : engineStep s = .fault r) :
    (s.env.turns = [] → step s = .fault r) ∧
    (∀ ts, s.env.turns = .engine :: ts → step s = .next { s with env := { s.env with turns := ts } }) := by
  refine ⟨fun hT => (step_of_no_turns hT).trans h, fun ts hT => ?_⟩
  rw [step_of_turn hT, turnStep, engineTurn, engineStep_withTurns_fault h]; rfl

/-- R205: a host that appends to a full command port holds, and the engine moves (log 7). -/
theorem step_push_full {s : State} {host : Nat} {w : Word} {ts : List Turn} (h : s.env.turns = .push host w :: ts)
    (hfull : Config.cmdFifoDepth ≤ s.cmdq.length) : step s = engineStep s := by
  rw [step_of_turn h, turnStep, if_pos hfull]

/-- R205: a host that removes from an empty response port holds, and the engine moves (log 7). -/
theorem step_pop_empty {s : State} {ts : List Turn} (h : s.env.turns = .pop :: ts) (hempty : s.rspq = []) :
    step s = engineStep s := by
  rw [step_of_turn h, turnStep, hempty]

/-! What a step of the engine does to the ports. -/

/-- R61, R100: a step of the engine takes exactly one whole frame from the command port. -/
theorem engineStep_takes_frame {s t : State} (h : engineStep s = .next t) :
    ∃ hd data, s.cmdq = hd :: data ++ t.cmdq ∧ data.length = dataWords hd := by
  rcases engineStep_next h with ⟨i, rest, e, -, he⟩ | ⟨cause, hd, rest, e, -, rfl⟩
  · obtain ⟨hd, tail, op, c, hs, hl, -, -, rfl⟩ := decodeFrame_ok e
    obtain ⟨data, hdata⟩ := frame_split hl
    rw [hs, exec_inv he]; exact ⟨hd, data, hdata⟩
  · obtain ⟨tail, hs, hl, -, rfl⟩ := decodeFrame_illegal e
    obtain ⟨data, hdata⟩ := frame_split hl
    rw [hs]; exact ⟨hd, data, hdata⟩

/-- R70, R100: a step of the engine appends exactly one response frame. -/
theorem engineStep_answers {s t : State} (h : engineStep s = .next t) :
    ∃ st chan bytes, t.rspq = s.rspq ++ responseFrame st chan bytes := by
  rcases engineStep_next h with ⟨i, rest, -, -, he⟩ | ⟨cause, hd, rest, -, -, rfl⟩
  · rw [exec_inv he]; exact ⟨_, _, _, rfl⟩
  · exact ⟨_, _, _, rfl⟩

/-- Settles O9: the engine's step asks for room first, and a holding host's step is the engine's. -/
theorem backPressureHolds : Obligations.BackPressureHolds := by
  refine ⟨fun s i rest e hroom => ?_, fun s cause h rest e hroom => ?_, fun s i => ?_,
    fun s host w ts hT hfull => ?_, fun s ts hT hempty => ?_⟩
  · exact step_of_held (engineStep_of_not_fits e ((fits_eq_false_iff ..).2 hroom))
  · exact step_of_held (engineStep_of_illegal_not_fits e ((fits_eq_false_iff ..).2 hroom))
  · have := resultBytes_le i s
    rw [Config.rspFifoDepth, Config.cmdFifoDepth]; omega
  · have hstep := step_push_full hT hfull
    refine ⟨hstep, fun t ht => ?_⟩
    rw [hstep] at ht
    obtain ⟨hd, data, hq, -⟩ := engineStep_takes_frame ht
    exact ⟨engineStep_env ht, hd :: data, List.cons_ne_nil _ _, hq⟩
  · have hstep := step_pop_empty hT hempty
    refine ⟨hstep, fun t ht => ?_⟩
    rw [hstep] at ht
    obtain ⟨st, chan, bytes, hr⟩ := engineStep_answers ht
    exact ⟨engineStep_env ht, by rw [hr]; exact List.append_ne_nil_of_right_ne_nil _ (List.cons_ne_nil _ _)⟩

/-! The command stream. -/

/-- R47, R100: with nothing scheduled, a well-formed command's frame at the head of the command port runs, if the
response port has the room that the table asks for. -/
theorem step_of_encoded_head {s : State} {i : Instr} {rest : List Word} (hT : s.env.turns = []) (hw : i.wf = true)
    (hq : s.cmdq = encode i ++ rest) (hroom : s.rspq.length + mostResponseWords i ≤ Config.rspFifoDepth) :
    step s = exec i (s.consume rest) := by
  have hle := responseWords_le_mostResponseWords i s
  rw [step_of_no_turns hT]
  exact engineStep_of_fits (by rw [hq, decodeFrame_encode_append hw]) ((fits_iff ..).2 (by omega))

/-- One step of a run, and the steps behind it. -/
theorem run_succ_of_step {s t : State} (h : step s = .next t) (k : Nat) :
    Sys2Proof.core.run (k + 1) s = Sys2Proof.core.run k t := by
  have h' : Sys2Proof.core.step s = .next t := h
  simp only [Host.Core.run, h']

/-- Settles O12, by induction on the commands: each step runs the head command and leaves the later frames to it. -/
theorem engineRunsTheCommandStreamInOrder : Obligations.EngineRunsTheCommandStreamInOrder := by
  intro is rest
  induction is with
  | nil => rintro s - - hq -; rw [show rest = s.cmdq from hq.symm]; rfl
  | cons i is ih =>
    intro s hT hw hq hroom
    rw [List.flatMap_cons, List.append_assoc] at hq
    rw [List.map_cons, List.sum_cons] at hroom
    have hstep := step_of_encoded_head hT (hw i List.mem_cons_self) hq (by omega)
    obtain ⟨t, ht⟩ : ∃ t, exec i (s.consume (is.flatMap encode ++ rest)) = .next t := ⟨_, exec_next ..⟩
    have hexec : exec i { s with cmdq := rest } = .next { t with cmdq := rest } := exec_cmdq ht rest
    have hlen : t.rspq.length = s.rspq.length + responseWords (resultBytes i s) := by
      rw [exec_rspq_length ht, resultBytes_eq_of_channels rfl rfl]; rfl
    have hle := responseWords_le_mostResponseWords i s
    have hkeep : t.env = s.env ∧ t.cmdq = is.flatMap encode ++ rest := by rw [exec_inv ht]; exact ⟨rfl, rfl⟩
    obtain ⟨he, hq'⟩ := hkeep
    rw [List.length_cons, run_succ_of_step (hstep.trans ht), execAll_cons_next hexec]
    exact ih t (he ▸ hT) (fun j hj => hw j (List.mem_cons_of_mem _ hj)) hq' (by omega)

end Sys2Proof.Machine
end

section
/-! SUPPORT. The invariant of the block (R29, R32): each command keeps what its channel holds, each step keeps both
channels and both ports' capacities. -/

namespace Sys2Proof

/-- R8: what holds of every channel is what holds of the two. -/
theorem Chan.forall_iff {p : Chan → Prop} : (∀ c, p c) ↔ p .sha1 ∧ p .sha256 := by
  refine ⟨fun h => ⟨h _, h _⟩, fun ⟨h0, h1⟩ c => ?_⟩
  cases c with
  | sha1 => exact h0
  | sha256 => exact h1

end Sys2Proof

namespace Sys2Proof.Machine

/-! One channel. -/

section
variable {n : Nat} {A : Algo n} {ch : Channel n}

/-- R35: after reset a channel holds nothing. -/
theorem Channel.afterReset_inv (A : Algo n) (c d : Nat) : (Channel.afterReset n c d).Inv A := ⟨rfl, rfl⟩

/-- R110, R111: finishing a channel that holds a message leaves that message's hash and length. -/
theorem Channel.finish_inv {m : List Byte} (h : ch.Holds A m) : (ch.finish A).Inv A := by
  have hhash := Channel.finish_holds A h
  obtain ⟨htotal, -, -, hwrap⟩ := h
  exact ⟨rfl, m, hhash, htotal, hwrap⟩

/-- R29: every command keeps the invariant of the channel it runs on. -/
theorem commandReply_keeps_inv (h : ch.Inv A) (i : Instr) : ((commandReply i n A ch).channel ch).Inv A := by
  cases i with
  | init c => exact Channel.create_holds A
  | feed c d =>
    rw [commandReply]
    cases ho : ch.phase.isOpen with
    | true =>
      obtain ⟨m, hm⟩ := h.holds_of_open A ho
      rw [feedCommand_open A d ho]; exact ⟨m ++ d, Channel.accept_holds A hm d⟩
    | false => rw [feedCommand_closed A d ho]; exact h
  | final c =>
    rw [commandReply]
    cases ho : ch.phase.isOpen with
    | true =>
      obtain ⟨m, hm⟩ := h.holds_of_open A ho
      rw [finalCommand_open A ho]; exact Channel.finish_inv hm
    | false => rw [finalCommand_closed A ho]; exact h
  | digest c d => exact h
  | dlen c => exact h
  | status c => exact h

/-- R24: what is pending of a message is less than a block. -/
theorem Channel.Holds.pend_length_le {m : List Byte} (h : ch.Holds A m) : ch.pend.length ≤ 63 := by
  obtain ⟨-, hpend, -, -⟩ := h
  rw [hpend, List.length_drop]; omega

/-- R29: a channel that is not open has nothing pending. -/
theorem Channel.Inv.pend_of_closed (h : ch.Inv A) (hc : ch.phase.isOpen = false) : ch.pend = [] := by
  unfold Channel.Inv at h
  cases hp : ch.phase with
  | none => rw [hp] at h; exact h.1
  | created => rw [hp] at hc; cases hc
  | updating => rw [hp] at hc; cases hc
  | finalized => rw [hp] at h; exact h.1

/-- R29 (I-a): the invariant bounds the pending bytes. -/
theorem Channel.Inv.pend_length_le (h : ch.Inv A) : ch.pend.length ≤ 63 := by
  cases ho : ch.phase.isOpen with
  | true =>
    obtain ⟨m, hm⟩ := h.holds_of_open A ho
    exact hm.pend_length_le
  | false => rw [h.pend_of_closed ho]; exact Nat.zero_le 63

end

/-! The block. -/

/-- R29, R32: the invariant, with both channels behind their accessor. -/
theorem State.inv_iff (s : State) :
    s.Inv ↔ (∀ c, (s.channel c).Inv c.algo) ∧
      s.cmdq.length ≤ Config.cmdFifoDepth ∧ s.rspq.length ≤ Config.rspFifoDepth := by
  rw [Chan.forall_iff, and_assoc]; rfl

@[simp] theorem State.consume_channel (s : State) (rest : List Word) (c : Chan) :
    (s.consume rest).channel c = s.channel c := by cases c <;> rfl

@[simp] theorem State.raise_channel (s : State) (st : Status) (chan : BitVec 4) (c : Chan) :
    (s.raise st chan).channel c = s.channel c := by cases c <;> rfl

/-- R29: a command keeps the invariant of both channels. -/
theorem exec_keeps_channel_inv {i : Instr} {s t : State} (h : exec i s = .next t)
    (hs : ∀ c, (s.channel c).Inv c.algo) (d : Chan) : (t.channel d).Inv d.algo := by
  by_cases hd : d = i.chan
  · subst hd; rw [exec_channel h]; exact commandReply_keeps_inv (hs _) i
  · rw [exec_channel_of_ne h hd]; exact hs d

/-- R61: a step of the engine makes the command port shorter. -/
theorem engineStep_cmdq_length_lt {s t : State} (h : engineStep s = .next t) : t.cmdq.length < s.cmdq.length := by
  obtain ⟨hd, data, hq, -⟩ := engineStep_takes_frame h
  rw [hq, List.length_append, List.length_cons]; omega

/-- R205: a step of the engine never overfills the response port. -/
theorem engineStep_rspq_length_le {s t : State} (h : engineStep s = .next t) :
    t.rspq.length ≤ Config.rspFifoDepth := by
  rcases engineStep_next h with ⟨i, rest, -, hf, he⟩ | ⟨cause, hd, rest, -, hf, rfl⟩
  · rw [exec_rspq_length he, resultBytes_eq_of_channels (u := s.consume rest) (s := s) rfl rfl]
    exact (fits_iff ..).1 hf
  · rw [rejectFrame, State.raise_rspq, List.length_append, responseFrame_length]; exact (fits_iff ..).1 hf

/-- R29: a step of the engine keeps the invariant of both channels. -/
theorem engineStep_keeps_channel_inv {s t : State} (h : engineStep s = .next t)
    (hs : ∀ c, (s.channel c).Inv c.algo) (d : Chan) : (t.channel d).Inv d.algo := by
  rcases engineStep_next h with ⟨i, rest, -, -, he⟩ | ⟨cause, hd, rest, -, -, rfl⟩
  · refine exec_keeps_channel_inv he (fun c => ?_) d
    rw [State.consume_channel]; exact hs c
  · rw [rejectFrame, State.raise_channel, State.consume_channel]; exact hs d

/-- R29, R205: a step of the engine keeps the invariant. -/
theorem engineStep_keeps_inv {s t : State} (hs : s.Inv) (h : engineStep s = .next t) : t.Inv := by
  obtain ⟨hch, hq, -⟩ := s.inv_iff.1 hs
  have hlt := engineStep_cmdq_length_lt h
  exact t.inv_iff.2 ⟨engineStep_keeps_channel_inv h hch, by omega, engineStep_rspq_length_le h⟩

/-- R29: the invariant does not speak of the schedule. -/
theorem State.Inv.withTurns {s : State} (h : s.Inv) (ts : List Turn) : (s.withTurns ts).Inv := h

/-- R32: an append with room keeps the invariant. -/
theorem State.Inv.append {s : State} (h : s.Inv) (hroom : s.cmdq.length < Config.cmdFifoDepth) (host : Nat) (w : Word) :
    (s.append host w).Inv := by
  obtain ⟨h0, h1, -, hr⟩ := h
  exact ⟨h0, h1, by rw [State.append_cmdq, List.length_append]; exact hroom, hr⟩

/-- R44: a removal keeps the invariant. -/
theorem State.Inv.remove {s : State} {w : Word} {ws : List Word} (h : s.Inv) (e : s.rspq = w :: ws) :
    (s.remove w ws).Inv := by
  obtain ⟨h0, h1, hq, hr⟩ := h
  rw [e, List.length_cons] at hr
  exact ⟨h0, h1, hq, Nat.le_of_succ_le hr⟩

/-- R35: a block just reset meets the invariant. -/
theorem State.resetBlock_inv (s : State) : s.resetBlock.Inv :=
  ⟨Channel.afterReset_inv _ _ _, Channel.afterReset_inv _ _ _, Nat.zero_le _, Nat.zero_le _⟩

/-- Settles O40: each kind of step keeps the invariant by its own lemma. -/
theorem everyStepKeepsTheInvariant : Obligations.EveryStepKeepsTheInvariant := by
  intro s t hs h
  rcases step_next h with h | ⟨ts, -, rfl | h⟩ | ⟨host, w, ts, -, hroom, -, rfl⟩ | ⟨w, ws, ts, -, e, rfl⟩ | ⟨ts, -, rfl⟩
  · exact engineStep_keeps_inv hs h
  · exact hs.withTurns ts
  · exact engineStep_keeps_inv (hs.withTurns ts) h
  · exact (hs.withTurns ts).append hroom host w
  · exact (hs.withTurns ts).remove e
  · exact State.resetBlock_inv _

/-- Settles O39: both channels are just reset and both ports are empty. -/
theorem resetMeetsTheInvariant : Obligations.ResetMeetsTheInvariant :=
  ⟨Channel.afterReset_inv _ _ _, Channel.afterReset_inv _ _ _, Nat.zero_le _, Nat.zero_le _⟩

/-- Settles O41: an open channel's pending bytes are the tail of its message, the others have none. -/
theorem invariantBoundsThePendingBytes : Obligations.InvariantBoundsThePendingBytes := by
  rintro s ⟨h0, h1, -, -⟩
  exact ⟨h0.pend_length_le, h1.pend_length_le⟩

end Sys2Proof.Machine
end

section
/-! SUPPORT. The scheduled turns that have their effect: the engine's, a host's append and removal, and reset (R32,
R44, R100, R200). -/

namespace Sys2Proof.Machine

/-- R47, R100: the engine's turn runs the head frame's command when its response fits. -/
theorem engineTurn_of_fits {s : State} {i : Instr} {rest : List Word} (e : decodeFrame s.cmdq = .ok (i, rest))
    (hf : s.fits (resultBytes i s) = true) : engineTurn s = exec i (s.consume rest) := by
  rw [engineTurn, engineStep_of_fits e hf, exec_next]

/-- R53: with no frame open, or by the host that opened it, an append is no interleaving. -/
theorem interleaves_eq_false {s : State} {host : Nat} (h : openWords s.cmdq = 0 ∨ host = s.env.tailHost) :
    s.interleaves host = false :=
  decide_eq_false fun ⟨hopen, hhost⟩ => h.elim hopen hhost

/-- R32, R44: an append with room. -/
theorem step_push {s : State} {host : Nat} {w : Word} {ts : List Turn} (hT : s.env.turns = .push host w :: ts)
    (hroom : s.cmdq.length < Config.cmdFifoDepth) (hi : s.interleaves host = false) :
    step s = .next ((s.withTurns ts).append host w) := by
  rw [step_of_turn hT, turnStep, if_neg (Nat.not_le.2 hroom), hi]; rfl

/-- R44: a removal from a response port that is not empty. -/
theorem step_pop {s : State} {w : Word} {ws : List Word} {ts : List Turn} (hT : s.env.turns = .pop :: ts)
    (hr : s.rspq = w :: ws) : step s = .next ((s.withTurns ts).remove w ws) := by
  rw [step_of_turn hT, turnStep, hr]

/-- R200: reset's turn. -/
theorem step_reset {s : State} {ts : List Turn} (hT : s.env.turns = .reset :: ts) :
    step s = .next (s.withTurns ts).resetBlock := by
  rw [step_of_turn hT, turnStep]

/-- R30, R35: the STATUS word of a channel just reset reads 0. -/
@[simp] theorem Channel.afterReset_statusWord (n c d : Nat) : (Channel.afterReset n c d).statusWord = 0 := by
  simp [Channel.statusWord, Phase.code]

/-- Settles O6: the decoded command runs behind its frame, in the engine's own step or in its scheduled turn. -/
theorem stepRunsTheDecodedCommand : Obligations.StepRunsTheDecodedCommand := by
  intro s i rest e hroom
  have hf : s.fits (resultBytes i s) = true := by rw [fits_iff, responseWords, wordsFor]; omega
  refine ⟨fun hT => ?_, fun ts hT => ?_⟩
  · rw [step_of_no_turns hT]; exact engineStep_of_fits e hf
  · have hres : resultBytes i (s.withTurns ts) = resultBytes i s := resultBytes_eq_of_channels rfl rfl i
    rw [step_of_turn hT, turnStep]
    exact engineTurn_of_fits e (by rw [hres]; exact hf)

/-- Settles O42: power-on and reset's turn leave both channels as `Channel.afterReset` has them. -/
theorem resetValues : Obligations.ResetValues :=
  ⟨by simp [State.reset], fun _ _ hT => ⟨_, step_reset hT, by simp⟩⟩

/-- Settles O43: an append and a removal take their one word's turn and move that word. -/
theorem portAccessesMoveOneWord : Obligations.PortAccessesMoveOneWord :=
  ⟨fun _ _ _ _ hT hroom h => step_push hT hroom (interleaves_eq_false h), fun _ _ _ _ hT hr => step_pop hT hr⟩

end Sys2Proof.Machine
end

section
/-! SUPPORT. States that differ only in the unspecified values of a channel in phase NONE (R29 (I-b), R35, R36): every
update takes such states to such states, and whatever the block reads of them is the same. -/

namespace Sys2Proof.Machine

/-! One channel. -/

section
variable {n : Nat} {a b : Channel n}

theorem Channel.Agrees.refl (a : Channel n) : a.Agrees a := ⟨rfl, rfl, rfl, fun _ => ⟨rfl, rfl⟩⟩

theorem Channel.Agrees.phase_eq (h : a.Agrees b) : a.phase = b.phase := have ⟨hphase, _⟩ := h; hphase

/-- R29 (I-b): outside phase NONE nothing is unspecified. -/
theorem Channel.Agrees.eq_of_phase_ne_none (h : a.Agrees b) (hp : a.phase ≠ .none) : a = b := by
  obtain ⟨hphase, hpend, hwrap, hvalues⟩ := h
  obtain ⟨hH, htotal⟩ := hvalues hp
  cases a; cases b
  exact (Channel.mk.injEq ..).mpr ⟨hphase, hH, hpend, htotal, hwrap⟩

/-- R115: STATUS shows nothing unspecified. -/
theorem Channel.Agrees.statusWord_eq (h : a.Agrees b) : a.statusWord = b.statusWord := by
  obtain ⟨hphase, hpend, hwrap, -⟩ := h
  rw [Channel.statusWord, hphase, hpend, hwrap, Channel.statusWord]

/-- R36: two replies answer the same and leave agreeing channels. -/
def Reply.Agrees (r r' : Reply n) (a b : Channel n) : Prop :=
  r.status = r'.status ∧ r.bytes = r'.bytes ∧ (r.channel a).Agrees (r'.channel b)

/-- R14: the same error, from agreeing channels. -/
theorem Channel.Agrees.raised (h : a.Agrees b) (st : Status) :
    (Reply.raised st : Reply n).Agrees (.raised st) a b := ⟨rfl, rfl, h⟩

/-- R36: no command's reply depends on an unspecified value. Outside phase NONE there is none; in it, FEED and
FINAL are refused, INIT overwrites them, and the other three do not read them. -/
theorem Channel.Agrees.commandReply (A : Algo n) (h : a.Agrees b) (i : Instr) :
    (commandReply i n A a).Agrees (commandReply i n A b) a b := by
  by_cases hp : a.phase = .none
  · have ha : a.phase.isOpen = false := by rw [hp]; rfl
    have hb : b.phase.isOpen = false := h.phase_eq ▸ ha
    cases i with
    | init c => exact ⟨rfl, rfl, Channel.Agrees.refl _⟩
    | feed c d =>
      simp only [Machine.commandReply, feedCommand_closed A d ha, feedCommand_closed A d hb]
      exact h.raised _
    | final c =>
      simp only [Machine.commandReply, finalCommand_closed A ha, finalCommand_closed A hb]
      exact h.raised _
    | digest c d => exact ⟨rfl, rfl, h⟩
    | dlen c => exact ⟨rfl, rfl, h⟩
    | status c => exact ⟨rfl, congrArg be32 h.statusWord_eq, h⟩
  · rw [h.eq_of_phase_ne_none hp]
    exact ⟨rfl, rfl, Channel.Agrees.refl _⟩

end

/-! What agreeing states have in common. -/

section
variable {s t : State}

/-- R36: agreement, with both channels behind their accessor. -/
theorem State.agrees_iff :
    s.Agrees t ↔ (∀ c, (s.channel c).Agrees (t.channel c)) ∧ s.cmdq = t.cmdq ∧ s.rspq = t.rspq ∧ s.env = t.env := by
  rw [Chan.forall_iff, and_assoc]; rfl

theorem State.phaseOf_eq_channel_phase (s : State) (c : Chan) : s.phaseOf c = (s.channel c).phase := by
  cases c <;> rfl

variable (h : s.Agrees t)
include h

theorem State.Agrees.channel (c : Chan) : (s.channel c).Agrees (t.channel c) :=
  have ⟨hch, _⟩ := agrees_iff.1 h; hch c

theorem State.Agrees.cmdq_eq : s.cmdq = t.cmdq := have ⟨_, _, hq, _, _⟩ := h; hq

theorem State.Agrees.rspq_eq : s.rspq = t.rspq := have ⟨_, _, _, hr, _⟩ := h; hr

theorem State.Agrees.env_eq : s.env = t.env := have ⟨_, _, _, _, he⟩ := h; he

/-- R205: the room in the response port is the same. -/
theorem State.Agrees.fits_eq (k : Nat) : s.fits k = t.fits k := by rw [State.fits, h.rspq_eq, State.fits]

/-- R72: the room a command asks for depends on nothing unspecified. -/
theorem State.Agrees.resultBytes_eq (i : Instr) : resultBytes i s = resultBytes i t := by
  cases i with
  | final c =>
    rw [resultBytes, resultBytes, State.phaseOf_eq_channel_phase, State.phaseOf_eq_channel_phase,
      (h.channel c).phase_eq]
  | _ => rfl

/-- R53: an append interleaves in both states or in neither. -/
theorem State.Agrees.interleaves_eq (host : Nat) : s.interleaves host = t.interleaves host := by
  rw [State.interleaves, h.cmdq_eq, h.env_eq, State.interleaves]

/-! The updates that keep agreement. -/

theorem State.Agrees.consume (rest : List Word) : (s.consume rest).Agrees (t.consume rest) := by
  obtain ⟨h0, h1, -, hr, he⟩ := h
  exact ⟨h0, h1, rfl, hr, he⟩

theorem State.Agrees.raise (st : Status) (chan : BitVec 4) : (s.raise st chan).Agrees (t.raise st chan) := by
  obtain ⟨h0, h1, hq, hr, he⟩ := h
  exact ⟨h0, h1, hq, congrArg (· ++ _) hr, he⟩

theorem State.Agrees.withTurns (ts : List Turn) : (s.withTurns ts).Agrees (t.withTurns ts) := by
  obtain ⟨h0, h1, hq, hr, he⟩ := h
  exact ⟨h0, h1, hq, hr, by rw [State.withTurns_env, he, State.withTurns_env]⟩

theorem State.Agrees.append (host : Nat) (w : Word) : (s.append host w).Agrees (t.append host w) := by
  obtain ⟨h0, h1, hq, hr, he⟩ := h
  exact ⟨h0, h1, congrArg (· ++ [w]) hq, hr, by rw [State.append_env, he, State.append_env]⟩

theorem State.Agrees.remove (w : Word) (rest : List Word) : (s.remove w rest).Agrees (t.remove w rest) := by
  obtain ⟨h0, h1, hq, -, he⟩ := h
  exact ⟨h0, h1, hq, rfl, by rw [State.remove_env, he, State.remove_env]⟩

/-- R200: reset makes the same draws from both. -/
theorem State.Agrees.resetBlock : s.resetBlock.Agrees t.resetBlock := by
  rw [State.resetBlock, h.env_eq, State.resetBlock]
  exact ⟨Channel.Agrees.refl _, Channel.Agrees.refl _, rfl, rfl, rfl⟩

/-- R100: agreeing replies carried out on agreeing states. -/
theorem State.Agrees.applyReply {c : Chan} {r r' : Reply c.hashWords}
    (hr : r.Agrees r' (s.channel c) (t.channel c)) : (s.applyReply c r).Agrees (t.applyReply c r') := by
  obtain ⟨hstatus, hbytes, hch⟩ := hr
  refine State.agrees_iff.2 ⟨fun d => ?_, ?_, ?_, ?_⟩
  · by_cases hd : d = c
    · subst hd; rw [State.applyReply_channel, State.applyReply_channel]; exact hch
    · rw [State.applyReply_channel_of_ne _ _ _ hd, State.applyReply_channel_of_ne _ _ _ hd]; exact h.channel d
  · rw [State.applyReply_cmdq, State.applyReply_cmdq, h.cmdq_eq]
  · rw [State.applyReply_rspq, State.applyReply_rspq, h.rspq_eq, hstatus, hbytes]
  · rw [State.applyReply_env, State.applyReply_env, h.env_eq]

/-! The steps that keep agreement. -/

/-- R36: a command runs alike. -/
theorem State.Agrees.exec (i : Instr) : OutcomesAgree (exec i s) (exec i t) := by
  rw [exec_eq_applyReply, exec_eq_applyReply]
  exact h.applyReply ((h.channel i.chan).commandReply i.chan.algo i)

/-- R36: the engine runs the same command, rejects the same frame, or holds for the same reason. -/
theorem State.Agrees.engineStep : OutcomesAgree (engineStep s) (engineStep t) := by
  simp only [Machine.engineStep, h.cmdq_eq, h.fits_eq, h.resultBytes_eq]
  split
  · rfl
  · rfl
  · split
    · exact (h.consume _).raise _ _
    · rfl
  · split
    · exact (h.consume _).exec _
    · rfl

/-- R36: the engine's turn passes in both states or in neither. -/
theorem State.Agrees.engineTurn : OutcomesAgree (engineTurn s) (engineTurn t) := by
  have hstep := h.engineStep
  rw [Machine.engineTurn, Machine.engineTurn]
  cases hs : Machine.engineStep s with
  | next s' =>
    cases ht : Machine.engineStep t with
    | next t' => rw [hs, ht] at hstep; exact hstep
    | fault r => rw [hs, ht] at hstep; exact hstep.elim
    | refused r => exact absurd ht (engineStep_not_refused t r)
  | fault r =>
    cases ht : Machine.engineStep t with
    | next t' => rw [hs, ht] at hstep; exact hstep.elim
    | fault r' => exact h
    | refused r' => exact absurd ht (engineStep_not_refused t r')
  | refused r => exact absurd hs (engineStep_not_refused s r)

/-- R36: a scheduled turn goes alike. -/
theorem State.Agrees.turnStep (turn : Turn) (ts : List Turn) :
    OutcomesAgree (turnStep turn ts s) (turnStep turn ts t) := by
  cases turn with
  | push host w =>
    simp only [Machine.turnStep, h.cmdq_eq, h.interleaves_eq]
    split
    · exact h.engineStep
    · split
      · rfl
      · exact (h.withTurns ts).append host w
  | pop =>
    simp only [Machine.turnStep, h.rspq_eq]
    split
    · exact h.engineStep
    · exact (h.withTurns ts).remove _ _
  | engine => exact (h.withTurns ts).engineTurn
  | reset => exact (h.withTurns ts).resetBlock

end

/-- Settles O38: agreeing states have the same schedule, and each kind of step keeps agreement by its own lemma. -/
theorem unspecifiedValuesAreUnobservable : Obligations.UnspecifiedValuesAreUnobservable := by
  intro s t h
  rw [step, step, h.env_eq]
  cases t.env.turns with
  | nil => exact h.engineStep
  | cons turn ts => exact h.turnStep turn ts

end Sys2Proof.Machine
end

section
/-! SUPPORT. Commands on different channels (R48): each reply is the same before and after the other command. -/

namespace Sys2Proof.Machine

/-- R48: a command's reply does not depend on what was done to the other channel. -/
theorem State.reply_applyReply_of_ne (s : State) {c : Chan} (r : Reply c.hashWords) {j : Instr} (h : j.chan ≠ c) :
    (s.applyReply c r).reply j = s.reply j := by
  rw [State.reply, State.applyReply_channel_of_ne s c r h, State.reply]

/-- R48: replies on different channels leave the same channels in either order. -/
theorem State.applyReply_channel_comm (s : State) {c d : Chan} (h : c ≠ d) (r : Reply c.hashWords)
    (q : Reply d.hashWords) (e : Chan) :
    ((s.applyReply c r).applyReply d q).channel e = ((s.applyReply d q).applyReply c r).channel e := by
  by_cases hd : e = d
  · subst hd
    rw [applyReply_channel, applyReply_channel_of_ne _ _ _ h.symm, applyReply_channel_of_ne _ _ _ h.symm,
      applyReply_channel]
  · rw [applyReply_channel_of_ne _ _ _ hd]
    by_cases hc : e = c
    · subst hc
      rw [applyReply_channel, applyReply_channel, applyReply_channel_of_ne _ _ _ hd]
    · rw [applyReply_channel_of_ne _ _ _ hc, applyReply_channel_of_ne _ _ _ hc, applyReply_channel_of_ne _ _ _ hd]

/-- R47, R70: two replies append their response frames in the order of the commands. -/
theorem State.applyReply_applyReply_rspq (s : State) (c d : Chan) (r : Reply c.hashWords) (q : Reply d.hashWords) :
    ((s.applyReply c r).applyReply d q).rspq =
      s.rspq ++ responseFrame r.status c.number r.bytes ++ responseFrame q.status d.number q.bytes := by
  rw [applyReply_rspq, applyReply_rspq]

/-- R48: two commands on different channels carry out the replies that each gets in the first state. -/
theorem execAll_pair_of_chan_ne {i j : Instr} (h : i.chan ≠ j.chan) (s : State) :
    execAll [i, j] s = .next ((s.applyReply i.chan (s.reply i)).applyReply j.chan (s.reply j)) := by
  rw [execAll_cons_next (exec_eq_applyReply i s), execAll_singleton, exec_eq_applyReply,
    s.reply_applyReply_of_ne _ h.symm]

/-- Settles O36: both orders carry out the same two replies, each on its own channel. -/
theorem channelsAreIndependent : Obligations.ChannelsAreIndependent := by
  intro i j s h
  have hch := s.applyReply_channel_comm h (s.reply i) (s.reply j)
  exact ⟨_, _, _, _, execAll_pair_of_chan_ne h s, execAll_pair_of_chan_ne h.symm s,
    s.applyReply_applyReply_rspq .., s.applyReply_applyReply_rspq .., hch .sha1, hch .sha256, by simp, by simp⟩

end Sys2Proof.Machine
end

section
/-! SUPPORT. Hosts at the command port (R44, R53, R205): what is refused, and runs of appends. -/

namespace Sys2Proof.Machine

/-- R53: whole frames leave the tracker where a stream starts. -/
theorem openWords_flatten_append {frames : List (List Word)}
    (hf : ∀ f ∈ frames, ∃ h d, f = h :: d ∧ d.length = dataWords h) (tail : List Word) :
    openWords (frames.flatten ++ tail) = openWords tail := by
  induction frames with
  | nil => rfl
  | cons f frames ih =>
    obtain ⟨h, d, rfl, hd⟩ := hf f List.mem_cons_self
    rw [List.flatten_cons, List.append_assoc, openWords_frame hd, ih fun f hmem => hf f (List.mem_cons_of_mem _ hmem)]

theorem interleaves_iff (s : State) (host : Nat) :
    s.interleaves host = true ↔ openWords s.cmdq ≠ 0 ∧ host ≠ s.env.tailHost := decide_eq_true_iff

/-- R53: an append inside another host's frame is refused, once there is room for it (log 8). -/
theorem step_push_interleaved {s : State} {host : Nat} {w : Word} {ts : List Turn}
    (hT : s.env.turns = .push host w :: ts) (hroom : s.cmdq.length < Config.cmdFifoDepth)
    (hi : s.interleaves host = true) : step s = .refused .interleavedFrame := by
  rw [step_of_turn hT, turnStep, if_neg (Nat.not_le.2 hroom), if_pos hi]

/-- Settles O44: the frame tracker passes over whole frames and stays inside a partial one. -/
theorem interleavedFramesAreRefused : Obligations.InterleavedFramesAreRefused := by
  refine ⟨fun s host w h frames data ts hT hf hq hd hhost => ?_, fun s host w frames ts hT hroom hf hq => ?_⟩
  · have hopen : openWords s.cmdq ≠ 0 := by rw [hq, openWords_flatten_append hf, openWords_partial hd]; omega
    split
    · next hroom => exact step_push_interleaved hT hroom ((interleaves_iff ..).2 ⟨hopen, hhost⟩)
    · next hfull => exact step_push_full hT (Nat.not_lt.1 hfull)
  · have hopen : openWords s.cmdq = 0 := by
      rw [hq, ← List.append_nil frames.flatten, openWords_flatten_append hf]; rfl
    exact ⟨_, step_push hT hroom (interleaves_eq_false (.inl hopen)), rfl⟩

/-- Settles O45, by induction on the words: behind its first word the host is the one that appended last. -/
theorem hostAppendsAWholeRun : Obligations.HostAppendsAWholeRun := by
  intro s host ws ts hT hroom hopen
  induction ws generalizing s with
  | nil => rw [List.append_nil, if_pos rfl, ← show s.env.turns = ts from hT]; rfl
  | cons w ws ih =>
    rw [List.length_cons] at hroom
    have hstep : step s = .next ((s.withTurns (pushAll host ws ++ ts)).append host w) :=
      step_push hT (by omega) (interleaves_eq_false hopen)
    rw [List.length_cons, run_succ_of_step hstep, ih _ rfl (by simp; omega) (.inr rfl)]
    simp

theorem engineTurn_not_refused (s : State) (r : Refusal) : engineTurn s ≠ .refused r := by
  intro h
  unfold engineTurn at h
  split at h
  · cases h
  · cases h
  · next hs => exact engineStep_not_refused _ _ hs

/-- R53: everything a refused step can be. -/
theorem step_refused {s : State} {r : Refusal} (h : step s = .refused r) :
    r = .interleavedFrame ∧ ∃ host w ts, s.env.turns = .push host w :: ts ∧ s.interleaves host = true := by
  cases hT : s.env.turns with
  | nil => exact absurd (step_of_no_turns hT ▸ h) (engineStep_not_refused s r)
  | cons t ts =>
    rw [step_of_turn hT] at h
    cases t with
    | push host w =>
      simp only [turnStep] at h
      split at h
      · exact absurd h (engineStep_not_refused s r)
      · split at h
        · next hi => cases h; exact ⟨rfl, host, w, ts, rfl, hi⟩
        · cases h
    | pop =>
      simp only [turnStep] at h
      split at h
      · exact absurd h (engineStep_not_refused s r)
      · cases h
    | engine => exact absurd h (engineTurn_not_refused _ r)
    | reset => cases h

/-- Settles O46: a refused step is an append that interleaves. -/
theorem onlyInterleavedAppendsAreRefused : Obligations.OnlyInterleavedAppendsAreRefused := by
  refine ⟨fun s r h => ?_, fun s hsafe r h => ?_⟩
  · obtain ⟨hr, host, w, ts, hT, hi⟩ := step_refused h
    obtain ⟨hopen, hhost⟩ := (interleaves_iff ..).1 hi
    exact ⟨hr, host, w, ts, hT, hhost, hopen⟩
  · obtain ⟨-, host, w, ts, hT, hi⟩ := step_refused h
    rw [interleaves_eq_false (hsafe host w ts hT).symm] at hi
    cases hi

end Sys2Proof.Machine
end

section
/-! SUPPORT. Data words as schedule words (R42): a block of 16 payload words is loaded as those words. -/

namespace Sys2Proof

/-- R63: byte `k` of word `j`. -/
theorem flatMap_be32_getD {ws : List Word} {j k : Nat} (hj : j < ws.length) (hk : k < 4) :
    (ws.flatMap be32).getD (4 * j + k) 0 = (be32 (ws.getD j 0)).getD k 0 := by
  induction ws generalizing j with
  | nil => exact absurd hj (Nat.not_lt_zero j)
  | cons w ws ih =>
    rw [List.flatMap_cons]
    cases j with
    | zero => rw [List.getD_append _ _ _ _ (by rw [be32_length]; omega), Nat.mul_zero, Nat.zero_add]; rfl
    | succ j =>
      rw [List.getD_append_right _ _ _ _ (by rw [be32_length]; omega), be32_length,
        show 4 * (j + 1) + k - 4 = 4 * j + k by omega, ih (Nat.lt_of_succ_lt_succ hj)]
      rfl

/-- R63: a payload without unused lanes is all the bytes of its words. -/
theorem payload_of_full {count : Nat} {ws : List Word} (h : 4 * ws.length = count) :
    payload count ws = ws.flatMap be32 :=
  List.take_of_length_le (by rw [flatMap_be32_length, h])

end Sys2Proof

namespace Sys2Proof.Machine

/-- R42, R133, R155: 16 payload words are the words of the loaded block. -/
theorem loadBlock_payload {ws : List Word} (h : ws.length = 16) : loadBlock (payload 64 ws) = ws := by
  rw [payload_of_full (by rw [h])]
  refine List.ext_getElem (by rw [loadBlock_length, h]) fun i hi hi' => ?_
  have hbyte {k : Nat} (hk : k < 4) := flatMap_be32_getD hi' hk
  have hbyte0 : (ws.flatMap be32).getD (4 * i) 0 = (be32 (ws.getD i 0)).getD 0 0 := hbyte (k := 0) (by decide)
  rw [← List.getD_eq_getElem _ 0 hi, ← List.getD_eq_getElem _ 0 hi', loadBlock_getD _ (by omega), hbyte0,
    hbyte (by decide), hbyte (by decide), hbyte (by decide)]
  exact be32dec_be32 _

/-- R133, R134: the schedule of SHA-1: 16 loaded words, then words that read the ones 3, 8, 14 and 16 before. -/
theorem schedule1_spec (B : List Byte) :
    (schedule1 B).length = 80 ∧ (schedule1 B).take 16 = loadBlock B ∧
    ∀ t, 16 ≤ t → t < 80 → (schedule1 B).getD t 0 =
      rotl 1 ((schedule1 B).getD (t - 3) 0 ^^^ (schedule1 B).getD (t - 8) 0 ^^^ (schedule1 B).getD (t - 14) 0 ^^^
        (schedule1 B).getD (t - 16) 0) := by
  refine foldl_extend (fun W t => rotl 1 (W.getD (t - 3) 0 ^^^ W.getD (t - 8) 0 ^^^ W.getD (t - 14) 0 ^^^
    W.getD (t - 16) 0)) 64 (loadBlock B) (loadBlock_length B) fun W W' t hW ht => ?_
  have hread {k : Nat} (hk : 0 < k) : (W ++ W').getD (t - k) 0 = W.getD (t - k) 0 := getD_append_left _ _ (by omega)
  rw [hread (by decide), hread (by decide), hread (by decide), hread (by decide)]

/-- R155, R156: the schedule of SHA-256: 16 loaded words, then words that read the ones 2, 7, 15 and 16 before. -/
theorem schedule256_spec (B : List Byte) :
    (schedule256 B).length = 64 ∧ (schedule256 B).take 16 = loadBlock B ∧
    ∀ t, 16 ≤ t → t < 64 → (schedule256 B).getD t 0 =
      smallSigma1 ((schedule256 B).getD (t - 2) 0) + (schedule256 B).getD (t - 7) 0 +
        smallSigma0 ((schedule256 B).getD (t - 15) 0) + (schedule256 B).getD (t - 16) 0 := by
  refine foldl_extend (fun W t => smallSigma1 (W.getD (t - 2) 0) + W.getD (t - 7) 0 + smallSigma0 (W.getD (t - 15) 0) +
    W.getD (t - 16) 0) 48 (loadBlock B) (loadBlock_length B) fun W W' t hW ht => ?_
  have hread {k : Nat} (hk : 0 < k) : (W ++ W').getD (t - k) 0 = W.getD (t - k) 0 := getD_append_left _ _ (by omega)
  rw [hread (by decide), hread (by decide), hread (by decide), hread (by decide)]

/-- R105, R112: a block's worth of data on an empty pending block is one compression step, and nothing stays pending. -/
theorem absorb_one_block {n : Nat} (A : Algo n) (H : Vector Word n) {B : List Byte} (h : B.length = 64) :
    absorb A H [] B = (A.compress H B, []) := by
  rw [absorb_spec, List.nil_append, fullBlocks_of_long h.ge, fullBlocks_of_short (by rw [List.length_drop]; omega),
    List.take_of_length_le h.le, List.drop_of_length_le (by omega)]
  rfl

/-- Settles O53: packing undoes serializing, and loading a block undoes splitting its words into bytes. -/
theorem dataWordsAreScheduleWords : Obligations.DataWordsAreScheduleWords := by
  refine ⟨fun n H => packWords_serialize H, by decide, fun ws h => ?_⟩
  have hload := loadBlock_payload h
  obtain ⟨-, hfirst1, -⟩ := schedule1_spec (payload 64 ws)
  obtain ⟨-, hfirst256, -⟩ := schedule256_spec (payload 64 ws)
  exact ⟨hfirst1.trans hload, hfirst256.trans hload,
    fun n A H => absorb_one_block A H (payload_length_eq (by rw [h]; rfl))⟩

end Sys2Proof.Machine
end

section
/-! SUPPORT. Frames and words (R61 to R66, R73): a word is its four header fields, a legal header is the header its own
command encodes to, and the payload is read off the lanes of the data words. -/

namespace Sys2Proof

/-! The fields make up the header (R62). -/

/-- R62: two words with the same four header fields are the same word. -/
theorem word_eq_iff_fields (h g : Word) :
    h = g ↔ opcodeField h = opcodeField g ∧ chanField h = chanField g ∧ rsvField h = rsvField g ∧
      countField h = countField g := by
  refine ⟨fun e => by subst e; exact ⟨rfl, rfl, rfl, rfl⟩, fun e => ?_⟩
  simp only [← BitVec.toNat_inj, opcodeField_toNat, chanField_toNat, rsvField_toNat, countField_toNat] at e ⊢
  omega

/-- R62, R66: a legal header is the header word of the operation and the channel it selects and of its own COUNT. -/
theorem headerWord_of_decodeHeader {h : Word} {op : Opcode} {c : Chan} (e : decodeHeader h = .ok (op, c)) :
    headerWord op.code c.number (countField h).toNat = h := by
  obtain ⟨hop, hrsv, hchan, -⟩ := (decodeHeader_ok_iff h op c).1 e
  have hcount := countField_headerWord op.code c.number (Nat.le_of_lt_succ (countField h).isLt)
  exact (word_eq_iff_fields ..).2 ⟨by rw [opcodeField_headerWord, hop], by rw [chanField_headerWord, hchan],
    by rw [rsvField_headerWord, hrsv], BitVec.eq_of_toNat_eq hcount⟩

/-- R66: a header is legal when it selects an operation and a channel. -/
theorem legalHeader_iff (h : Word) : legalHeader h = true ↔ ∃ op c, decodeHeader h = .ok (op, c) := by
  unfold legalHeader
  cases decodeHeader h with
  | error cause => simp
  | ok p => simp [Prod.ext_iff]

/-- R66: a header is illegal when it has a cause to be. -/
theorem legalHeader_eq_false_iff (h : Word) : legalHeader h = false ↔ ∃ cause, decodeHeader h = .error cause := by
  unfold legalHeader
  cases decodeHeader h with
  | error cause => simp
  | ok p => simp

/-- R65: the payload of the command put together from its parts. -/
theorem Instr.data_ofParts {op : Opcode} {d : List Byte} (h : op.hasPayload = true ∨ d = []) (c : Chan) :
    (Instr.ofParts op c d).data = d := by
  cases op with
  | feed => rfl
  | digest => rfl
  | _ =>
    have hd : d = [] := h.resolve_left (by decide)
    rw [hd]; rfl

/-! Whole frames (R61, R69). -/

/-- R66 (L4): COUNT bytes behind a legal header are none unless the operation carries a payload. -/
theorem hasPayload_or_nil {h : Word} {op : Opcode} {c : Chan} {d : List Byte} (e : decodeHeader h = .ok (op, c))
    (hd : d.length = (countField h).toNat) : op.hasPayload = true ∨ d = [] := by
  obtain ⟨-, -, -, hpay⟩ := (decodeHeader_ok_iff h op c).1 e
  exact hpay.imp_right fun hc => List.length_eq_zero_iff.1 (by rw [hd, hc]; rfl)

/-- R62, R69: the command of a legal header and of COUNT payload bytes encodes to that header and the packed bytes. -/
theorem encode_ofParts {h : Word} {op : Opcode} {c : Chan} {d : List Byte} (e : decodeHeader h = .ok (op, c))
    (hd : d.length = (countField h).toNat) : encode (Instr.ofParts op c d) = h :: packWords d := by
  rw [encode, Instr.opcode_ofParts, Instr.chan_ofParts, Instr.data_ofParts (hasPayload_or_nil e hd), hd,
    headerWord_of_decodeHeader e]

/-- R61, R100: a legal header with its data words decodes to its command, whatever stands behind. -/
theorem decodeFrame_of_legal {h : Word} {op : Opcode} {c : Chan} (e : decodeHeader h = .ok (op, c)) {data : List Word}
    (hd : data.length = dataWords h) (rest : List Word) :
    decodeFrame (h :: data ++ rest) = .ok (Instr.ofParts op c (payload (countField h).toNat data), rest) := by
  rw [List.cons_append, decodeFrame_of_complete (by rw [List.length_append]; omega), e]
  simp only [← hd, List.take_left, List.drop_left]

/-- R61, R66: an illegal header with its data words is an illegal frame, whatever stands behind. -/
theorem decodeFrame_of_illegal {h : Word} {cause : IllegalCause} (e : decodeHeader h = .error cause) {data : List Word}
    (hd : data.length = dataWords h) (rest : List Word) :
    decodeFrame (h :: data ++ rest) = .error (.illegal cause h rest) := by
  rw [List.cons_append, decodeFrame_of_complete (by rw [List.length_append]; omega), e]
  simp only [← hd, List.drop_left]

/-- R61, R66: what decodes as a command is a legal header, its data words and the rest. -/
theorem decodeFrame_ok_frame {ws rest : List Word} {i : Instr} (e : decodeFrame ws = .ok (i, rest)) :
    ∃ h data op c, ws = h :: data ++ rest ∧ data.length = dataWords h ∧ decodeHeader h = .ok (op, c) ∧
      i = Instr.ofParts op c (payload (countField h).toNat data) := by
  obtain ⟨h, tail, op, c, rfl, hl, hh, rfl, rfl⟩ := decodeFrame_ok e
  exact ⟨h, tail.take (dataWords h), op, c, by rw [List.cons_append, List.take_append_drop],
    List.length_take_of_le hl, hh, rfl⟩

/-- R62, R65: the command that a frame decodes to runs on the channel of the frame's CHAN bits. -/
theorem decodeFrame_ok_chan {ws rest : List Word} {i : Instr} (e : decodeFrame ws = .ok (i, rest)) :
    ∃ h data, ws = h :: data ++ rest ∧ data.length = dataWords h ∧ chanField h = i.chan.number := by
  obtain ⟨h, data, op, c, hws, hd, hh, rfl⟩ := decodeFrame_ok_frame e
  obtain ⟨-, -, hchan, -⟩ := (decodeHeader_ok_iff h op c).1 hh
  exact ⟨h, data, hws, hd, by rw [hchan, Instr.chan_ofParts]⟩

/-- R61: `ceil(COUNT / 4)`, of the header's number. -/
theorem dataWords_eq (h : Word) : dataWords h = (h.toNat % 2 ^ 16 + 3) / 4 := by
  rw [dataWords, countField_toNat, wordsFor]

/-- Settles O1: the encoded header selects the command and its COUNT, and unpacking undoes packing. -/
theorem decodeEncodeRoundTrip : Obligations.DecodeEncodeRoundTrip :=
  fun _ rest hw => decodeFrame_encode_append hw rest

/-- Settles O2: the decoded command has COUNT payload bytes, so it encodes to the header it was decoded from. -/
theorem decodedFramesAreWholeAndWellFormed : Obligations.DecodedFramesAreWholeAndWellFormed := by
  intro ws rest i e
  obtain ⟨h, data, op, c, hws, hd, hh, rfl⟩ := decodeFrame_ok_frame e
  have hlen : (payload (countField h).toNat data).length = (countField h).toNat := payload_length_eq hd
  have henc := encode_ofParts hh hlen
  refine ⟨?_, h, data, hws, by rw [hd, dataWords_eq], (legalHeader_iff h).2 ⟨op, c, hh⟩, by rw [henc]; rfl, ?_⟩
  · rw [Instr.wf_iff, Instr.data_ofParts (hasPayload_or_nil hh hlen), hlen]
    exact Nat.le_of_lt_succ (countField h).isLt
  · rw [henc, List.length_cons, packWords_length, hlen, hd, dataWords, Nat.add_comm]

/-! Lanes (R63). -/

/-- R13, R63: lane `k` of a word. -/
theorem be32_getD (x : Word) {k : Nat} (hk : k < 4) : (be32 x).getD k 0 = x.extractLsb' (24 - 8 * k) 8 := by
  match k, hk with
  | 0, _ => rfl
  | 1, _ => rfl
  | 2, _ => rfl
  | 3, _ => rfl

/-- R63: byte `4j + k` of a payload is lane `k` of data word `j`. -/
theorem payload_getD {count : Nat} {ws : List Word} (h : ws.length = wordsFor count) {j k : Nat} (hk : k < 4)
    (hjk : 4 * j + k < count) : (payload count ws).getD (4 * j + k) 0 = (ws.getD j 0).extractLsb' (24 - 8 * k) 8 := by
  have hj : j < ws.length := by rw [h, wordsFor]; omega
  rw [← be32_getD _ hk, ← flatMap_be32_getD hj hk, payload, List.getD_eq_getElem?_getD, List.getElem?_take_of_lt hjk,
    List.getD_eq_getElem?_getD]

/-- R63: a lane above the `a` bits that a shift drops is a lane of the shifted word. -/
theorem extractLsb'_eq_of_ushiftRight_eq {x y : Word} {a start len : Nat} (h : x >>> a = y >>> a) (ha : a ≤ start) :
    x.extractLsb' start len = y.extractLsb' start len := by
  refine BitVec.eq_of_getLsbD_eq fun i hi => ?_
  have hbit := congrArg (BitVec.getLsbD · (start - a + i)) h
  simp only [BitVec.getLsbD_ushiftRight, show a + (start - a + i) = start + i by omega] at hbit
  rw [BitVec.getLsbD_extractLsb', BitVec.getLsbD_extractLsb', hbit]

/-- R63: words that agree above the lanes that are not read have the same first `m` bytes. -/
theorem be32_take_eq {x y : Word} {m : Nat} (hm : m ≤ 4) (h : x >>> (8 * (4 - m)) = y >>> (8 * (4 - m))) :
    (be32 x).take m = (be32 y).take m := by
  have hlen (z : Word) : ((be32 z).take m).length = m := by rw [List.length_take, be32_length]; omega
  refine List.ext_getElem (by rw [hlen, hlen]) fun k hk _ => ?_
  rw [hlen] at hk
  rw [List.getElem_take, List.getElem_take, ← List.getD_eq_getElem _ 0, ← List.getD_eq_getElem _ 0,
    be32_getD _ (by omega), be32_getD _ (by omega), extractLsb'_eq_of_ushiftRight_eq h (by omega)]

/-- R63: the payload does not depend on the unused lanes of the last data word. -/
theorem payload_concat_eq {count : Nat} {x y : Word} {ws : List Word} (hlen : ws.length + 1 = wordsFor count)
    (h : x >>> (8 * (4 * (ws.length + 1) - count)) = y >>> (8 * (4 * (ws.length + 1) - count))) :
    payload count (ws ++ [x]) = payload count (ws ++ [y]) := by
  rw [wordsFor] at hlen
  have hlast := be32_take_eq (x := x) (y := y) (m := count - 4 * ws.length) (by omega)
    (by rw [show 4 - (count - 4 * ws.length) = 4 * (ws.length + 1) - count by omega]; exact h)
  simp only [payload, List.flatMap_append, List.flatMap_singleton, List.take_append, flatMap_be32_length, hlast]

/-- R63: nor does what the frame decodes to, legal or not. -/
theorem decodeFrame_unused_lanes {h x y : Word} {ws : List Word} (hlen : ws.length + 1 = dataWords h)
    (hpay : payload (countField h).toNat (ws ++ [x]) = payload (countField h).toNat (ws ++ [y])) (rest : List Word) :
    decodeFrame (h :: (ws ++ [x]) ++ rest) = decodeFrame (h :: (ws ++ [y]) ++ rest) := by
  have hl (z : Word) : (ws ++ [z]).length = dataWords h := by rw [List.length_append, ← hlen]; rfl
  cases hh : decodeHeader h with
  | error cause => rw [decodeFrame_of_illegal hh (hl x), decodeFrame_of_illegal hh (hl y)]
  | ok p => rw [decodeFrame_of_legal hh (hl x), decodeFrame_of_legal hh (hl y), hpay]

/-- Settles O5: the payload is read lane by lane, and of the last data word only the lanes below COUNT. -/
theorem payloadBytesAndUnusedLanes : Obligations.PayloadBytesAndUnusedLanes := by
  refine ⟨fun count ws hlen => ⟨payload_length_eq hlen, fun j k hk hjk => payload_getD hlen hk hjk⟩,
    fun h x y ws rest hlen hxy => ?_⟩
  rw [← countField_toNat] at hxy
  have hframe := decodeFrame_unused_lanes (by rw [hlen, dataWords_eq])
    (payload_concat_eq (by rw [hlen, countField_toNat, wordsFor]) hxy) rest
  simpa only [List.cons_append, List.append_assoc, List.nil_append] using hframe

/-! The header words worked out in the spec (R73). -/

/-- R69, R73: a frame of 64 equal bytes for channel 1. -/
theorem encode_feed_64_equal (b : Byte) :
    encode (.feed .sha256 (List.replicate 64 b)) = 0x02100040 :: List.replicate 16 (be32dec b b b b) := by
  have hheader : headerWord 0x02 1 64 = 0x02100040 := by decide
  rw [encode, Instr.data, List.length_replicate]
  exact congrArg (· :: _) hheader

/-- Settles O4: the words are closed but for the frame of 64 equal bytes, which is that command's encoding. -/
theorem headerWordsWorkedInTheSpec : Obligations.HeaderWordsWorkedInTheSpec := by
  have hfeed (b : Byte) : decodeFrame (0x02100040 :: List.replicate 16 (be32dec b b b b)) =
      .ok (.feed .sha256 (List.replicate 64 b), []) := by
    have hw : (Instr.feed .sha256 (List.replicate 64 b)).wf = true := by
      rw [Instr.wf_iff, Instr.data, List.length_replicate]; decide
    rw [← encode_feed_64_equal, ← List.append_nil (encode _)]
    exact decodeFrame_encode_append hw []
  exact ⟨by decide, by decide, by decide, hfeed, by decide, by decide, by decide, by decide, by decide, by decide,
    by decide, by decide, by decide, by decide, by decide, by decide⟩

end Sys2Proof
end

section
/-! SUPPORT. The match and mask table of R74: one row for each operation, and what a row's test reads of a header's
fields. The causes of R66 as numbers. -/

namespace Sys2Proof

/-- R74: the row of an operation. The mask leaves out the channel's low bit, and COUNT where there is a payload. -/
def Opcode.row (op : Opcode) : OpcodeRow where
  opcode := op
  pattern := headerWord op.code 0 0
  mask := if op.hasPayload then 0xFFEF0000 else 0xFFEFFFFF

/-- R74: the table holds the rows of the six operations. -/
theorem mem_opcodeTable_iff (r : OpcodeRow) : r ∈ opcodeTable ↔ ∃ op : Opcode, r = op.row := by
  have hrows : opcodeTable = [Opcode.init.row, Opcode.feed.row, Opcode.final.row, Opcode.digest.row, Opcode.dlen.row,
    Opcode.status.row] := by decide
  rw [hrows]
  refine ⟨fun h => ?_, fun ⟨op, h⟩ => ?_⟩
  · simp only [List.mem_cons, List.not_mem_nil, or_false] at h
    rcases h with h | h | h | h | h | h <;> exact ⟨_, h⟩
  · subst h; cases op <;> decide

/-- R74: what a row's mask lets through: all of OPCODE and RSV, all of CHAN but its low bit, and COUNT unless the
operation carries a payload. -/
theorem Opcode.row_mask_fields (op : Opcode) :
    opcodeField op.row.mask = BitVec.allOnes 8 ∧ chanField op.row.mask = 0xE ∧
      rsvField op.row.mask = BitVec.allOnes 4 ∧
      countField op.row.mask = if op.hasPayload then 0 else BitVec.allOnes 16 := by cases op <;> decide

/-- R62: the fields of a masked word are the masked fields. -/
theorem fields_and (h m : Word) :
    opcodeField (h &&& m) = opcodeField h &&& opcodeField m ∧ chanField (h &&& m) = chanField h &&& chanField m ∧
      rsvField (h &&& m) = rsvField h &&& rsvField m ∧ countField (h &&& m) = countField h &&& countField m :=
  ⟨BitVec.extractLsb'_and, BitVec.extractLsb'_and, BitVec.extractLsb'_and, BitVec.extractLsb'_and⟩

/-- R8, R62: the channel that bit 20 of a header gives. -/
def bitChan (h : Word) : Chan := if h.getLsbD 20 then .sha256 else .sha1

/-- R8: a channel number is one whose bits but the lowest are 0, and its lowest bit is bit 20 of the header. -/
theorem chanField_and_iff (h : Word) : chanField h &&& 0xE = 0 ↔ chanField h = (bitChan h).number := by
  have hbit : h.getLsbD 20 = (chanField h).getLsbD 0 := by simp [chanField]
  have hall : ∀ x : BitVec 4, x &&& 0xE = 0 ↔ x = (if x.getLsbD 0 then Chan.sha256 else Chan.sha1).number := by decide
  rw [bitChan, hbit]
  exact hall _

/-- R74: a header matches the row of an operation when it decodes to it, on the channel of bit 20. -/
theorem matches_row_iff (h : Word) (op : Opcode) :
    h &&& op.row.mask = op.row.pattern ↔ decodeHeader h = .ok (op, bitChan h) := by
  obtain ⟨hopMask, hchanMask, hrsvMask, hcountMask⟩ := op.row_mask_fields
  obtain ⟨hop, hchan, hrsv, hcount⟩ := fields_and h op.row.mask
  have hzero : countField op.row.pattern = 0 := BitVec.eq_of_toNat_eq (countField_headerWord _ _ (Nat.zero_le _))
  have hpay : countField h &&& (if op.hasPayload then 0 else BitVec.allOnes 16) = 0 ↔
      op.hasPayload = true ∨ countField h = 0 := by
    cases op.hasPayload with
    | true => simp
    | false => rw [if_neg Bool.false_ne_true, BitVec.and_allOnes]; simp
  rw [decodeHeader_ok_iff, word_eq_iff_fields, hop, hchan, hrsv, hcount, hopMask, hchanMask, hrsvMask, hcountMask,
    hzero, hpay, BitVec.and_allOnes, BitVec.and_allOnes, Opcode.row, opcodeField_headerWord, chanField_headerWord,
    rsvField_headerWord, chanField_and_iff]
  exact and_congr_right fun _ => and_left_comm

/-- R8, R62: a header that decodes names the channel of its bit 20. -/
theorem chan_eq_bitChan {h : Word} {op : Opcode} {c : Chan} (e : decodeHeader h = .ok (op, c)) : c = bitChan h := by
  obtain ⟨-, -, hchan, -⟩ := (decodeHeader_ok_iff h op c).1 e
  have hand : chanField h &&& 0xE = 0 := by rw [hchan]; cases c <;> decide
  have hnum : c.number = (bitChan h).number := hchan.symm.trans ((chanField_and_iff h).1 hand)
  exact Option.some_injective _ (by rw [← Chan.ofNumber_number, hnum, Chan.ofNumber_number])

/-- R66, R74: a header is legal exactly when it matches a row. -/
theorem legalHeader_iff_matches (h : Word) : legalHeader h = true ↔ ∃ r ∈ opcodeTable, h &&& r.mask = r.pattern := by
  rw [legalHeader_iff]
  constructor
  · rintro ⟨op, c, e⟩
    exact ⟨op.row, (mem_opcodeTable_iff _).2 ⟨op, rfl⟩, (matches_row_iff h op).2 (chan_eq_bitChan e ▸ e)⟩
  · rintro ⟨r, hr, hmatch⟩
    obtain ⟨op, rfl⟩ := (mem_opcodeTable_iff r).1 hr
    exact ⟨op, _, (matches_row_iff h op).1 hmatch⟩

/-- Settles O3: matching a row is decoding to its operation, and a header decodes to one operation. -/
theorem headersDecodeByTheMaskTable : Obligations.HeadersDecodeByTheMaskTable := by
  refine ⟨by decide, fun h => ⟨fun r hr => ?_, ?_, fun r hr r' hr' hmatch hmatch' => ?_⟩⟩
  · obtain ⟨op, rfl⟩ := (mem_opcodeTable_iff r).1 hr
    exact matches_row_iff h op
  · rw [← Bool.not_eq_true, legalHeader_iff_matches]
    simp only [not_exists, not_and, ne_eq]
  · obtain ⟨op, rfl⟩ := (mem_opcodeTable_iff r).1 hr
    obtain ⟨op', rfl⟩ := (mem_opcodeTable_iff r').1 hr'
    have heq := (matches_row_iff h op).1 hmatch
    rw [(matches_row_iff h op').1 hmatch'] at heq
    cases heq; rfl

/-! The causes of R66, in numbers. -/

/-- R64, R67: the OPCODE numbers in use are 1 to 6. -/
theorem exists_code_eq_iff (x : BitVec 8) : (∃ op : Opcode, x = op.code) ↔ x.toNat ∈ [1, 2, 3, 4, 5, 6] := by
  refine ⟨fun ⟨op, e⟩ => by subst e; cases op <;> decide, fun h => ?_⟩
  simp only [List.mem_cons, List.not_mem_nil, or_false] at h
  rcases h with h | h | h | h | h | h
  · exact ⟨.init, BitVec.eq_of_toNat_eq h⟩
  · exact ⟨.feed, BitVec.eq_of_toNat_eq h⟩
  · exact ⟨.final, BitVec.eq_of_toNat_eq h⟩
  · exact ⟨.digest, BitVec.eq_of_toNat_eq h⟩
  · exact ⟨.dlen, BitVec.eq_of_toNat_eq h⟩
  · exact ⟨.status, BitVec.eq_of_toNat_eq h⟩

/-- R64: the OPCODE numbers of the commands without payload. -/
theorem Opcode.hasPayload_iff (op : Opcode) : op.hasPayload = true ↔ op.code.toNat ∉ [1, 3, 5, 6] := by
  cases op <;> decide

/-- R8: the channel numbers in use are 0 and 1. -/
theorem exists_number_eq_iff (x : BitVec 4) : (∃ c : Chan, x = c.number) ↔ x.toNat ≤ 1 := by
  refine ⟨fun ⟨c, e⟩ => by subst e; cases c <;> decide, fun h => ?_⟩
  rcases Nat.le_one_iff_eq_zero_or_eq_one.1 h with h | h
  · exact ⟨.sha1, BitVec.eq_of_toNat_eq h⟩
  · exact ⟨.sha256, BitVec.eq_of_toNat_eq h⟩

/-- R66: a legal header is one to which none of (L1) to (L4) applies. -/
theorem legalHeader_iff_fields (h : Word) :
    legalHeader h = true ↔
      (opcodeField h).toNat ∈ [1, 2, 3, 4, 5, 6] ∧ (rsvField h).toNat = 0 ∧ (chanField h).toNat ≤ 1 ∧
        ((opcodeField h).toNat ∉ [1, 3, 5, 6] ∨ (countField h).toNat = 0) := by
  have hzero {w : Nat} (x : BitVec w) : x.toNat = 0 ↔ x = 0 := by rw [← BitVec.toNat_inj]; simp
  rw [legalHeader_iff, ← exists_code_eq_iff, ← exists_number_eq_iff, hzero, hzero]
  simp only [decodeHeader_ok_iff]
  constructor
  · rintro ⟨op, c, hop, hrsv, hchan, hcount⟩
    exact ⟨⟨op, hop⟩, hrsv, ⟨c, hchan⟩, by rwa [hop, ← Opcode.hasPayload_iff]⟩
  · rintro ⟨⟨op, hop⟩, hrsv, ⟨c, hchan⟩, hcount⟩
    exact ⟨op, c, hop, hrsv, hchan, by rwa [hop, ← Opcode.hasPayload_iff] at hcount⟩

end Sys2Proof
end

section
/-! SUPPORT. What the engine answers to the frame it takes (R61, R66, R70 to R72): the fields of a response, the room
it asks for, illegal frames. -/

namespace Sys2Proof.Machine

/-! Illegal frames (R66). -/

/-- R61, R66: with room for the answer, an illegal frame is rejected. -/
theorem engineStep_of_illegal_fits {s : State} {cause : IllegalCause} {h : Word} {rest : List Word}
    (e : decodeFrame s.cmdq = .error (.illegal cause h rest)) (hf : s.fits 0 = true) :
    engineStep s = .next (rejectFrame h rest s) := by
  simp only [engineStep, e, hf, if_true]

/-- R66, R71: the answer to an illegal frame is one word. -/
theorem responseFrame_illegalCommand (h : Word) :
    responseFrame .illegalCommand (chanField h) [] =
      [BitVec.ofNat 32 (3 * 2 ^ 24 + h.toNat / 2 ^ 20 % 16 * 2 ^ 20)] := by
  refine congrArg (· :: []) (BitVec.eq_of_toNat_eq ?_)
  have hcode : Status.illegalCommand.code.toNat = 3 := by decide
  rw [responseHeader, headerWord_toNat, hcode, chanField_toNat, BitVec.toNat_ofNat, List.length_nil]
  omega

/-- R61, R66: rejecting a frame takes it from the command port, answers, and changes nothing else. -/
theorem rejectFrame_eq (h : Word) (rest : List Word) (s : State) :
    rejectFrame h rest s = { s with
      cmdq := rest
      rspq := s.rspq ++ [BitVec.ofNat 32 (3 * 2 ^ 24 + h.toNat / 2 ^ 20 % 16 * 2 ^ 20)] } := by
  rw [rejectFrame, State.raise, State.respond, responseFrame_illegalCommand]; rfl

/-- Settles O7: the causes are those of `decodeHeader`, and the engine rejects the frame behind an illegal header. -/
theorem illegalFramesAreConsumedAndAnswered : Obligations.IllegalFramesAreConsumedAndAnswered := by
  refine ⟨fun h => ?_, legalHeader_iff_matches, fun s h data rest hq hd hill hroom => ?_⟩
  · rw [← Bool.not_eq_true, legalHeader_iff_fields, opcodeField_toNat, rsvField_toNat, chanField_toNat,
      countField_toNat]
    simp only [not_and_or, not_or, not_not, not_le, ne_eq]
  · obtain ⟨cause, hcause⟩ := (legalHeader_eq_false_iff h).1 hill
    have he : decodeFrame s.cmdq = .error (.illegal cause h rest) := by
      rw [hq, decodeFrame_of_illegal hcause (by rw [hd, dataWords_eq])]
    have hf : s.fits 0 = true := (fits_iff s 0).2 hroom
    refine ⟨fun hT => ?_, fun ts hT => ?_⟩
    · rw [step_of_no_turns hT, engineStep_of_illegal_fits he hf, rejectFrame_eq]
    · have hstep : engineStep (s.withTurns ts) = _ := engineStep_of_illegal_fits he hf
      rw [step_of_turn hT, turnStep, engineTurn, hstep, rejectFrame_eq]; rfl

/-! The length of a response (R72). -/

/-- R71, R72: an error has no result. -/
theorem Reply.bytes_of_status_ne_ok {n : Nat} {r : Reply n} (h : r.status ≠ .ok) : r.bytes = [] := by
  cases r with
  | done => exact absurd rfl h
  | raised => rfl

/-- The reply of a command, on the channel it names. -/
theorem replyOf_eq_reply (i : Instr) (s : State) : replyOf i s = ((s.reply i).status, (s.reply i).bytes) := by
  unfold replyOf State.reply
  cases i.chan <;> rfl

theorem reply_bytes_length (i : Instr) (s : State) : (s.reply i).bytes.length = resultBytes i s := by
  rw [← replyOf_bytes_length, replyOf_eq_reply]

/-- R71, R182: a command answers OK or INVALID_STATE. -/
theorem reply_status (i : Instr) (s : State) : (s.reply i).status = .ok ∨ (s.reply i).status = .invalidState :=
  commandReply_status ..

/-- R110: FINAL answers OK only on an open channel. -/
theorem isOpen_of_final_ok {c : Chan} {s : State} (h : (s.reply (.final c)).status = .ok) :
    (s.phaseOf c).isOpen = true := by
  rw [State.phaseOf_eq_channel_phase]
  by_contra hc
  have hraised : s.reply (.final c) = .raised .invalidState := finalCommand_closed _ (Bool.eq_false_iff.2 hc)
  rw [hraised] at h; cases h

/-- R72: a response has 0, 4, 20 or 32 result bytes. -/
theorem resultBytes_mem (i : Instr) (s : State) : resultBytes i s ∈ [0, 4, 20, 32] := by
  have hdigest (c : Chan) : digestLength c ∈ [0, 4, 20, 32] := by cases c <;> decide
  cases i with
  | final c =>
    simp only [resultBytes]
    split
    · exact hdigest c
    · decide
  | digest c d => exact hdigest c
  | _ => simp [resultBytes]

/-! The fields of a response header (R70, R71). -/

theorem Status.code_toNat_eq_zero_iff (st : Status) : st.code.toNat = 0 ↔ st = .ok := by cases st <;> decide

/-- R70: STATUS is the top byte of a response header. -/
theorem responseHeader_status (st : Status) (chan : BitVec 4) (k : Nat) :
    (responseHeader st chan k).toNat / 2 ^ 24 = st.code.toNat := by
  rw [responseHeader, ← opcodeField_toNat, opcodeField_headerWord]

theorem responseHeader_chan (st : Status) (chan : BitVec 4) (k : Nat) :
    (responseHeader st chan k).toNat / 2 ^ 20 % 16 = chan.toNat := by
  rw [responseHeader, ← chanField_toNat, chanField_headerWord]

theorem responseHeader_reserved (st : Status) (chan : BitVec 4) (k : Nat) :
    (responseHeader st chan k).toNat / 2 ^ 16 % 16 = 0 := by
  rw [responseHeader, ← rsvField_toNat, rsvField_headerWord]; rfl

/-- R70: RCOUNT is the low half of a response header. -/
theorem responseHeader_rcount (st : Status) (chan : BitVec 4) {k : Nat} (hk : k ≤ 65535) :
    (responseHeader st chan k).toNat % 2 ^ 16 = k := by
  rw [responseHeader, ← countField_toNat, countField_headerWord _ _ hk]

/-- Settles O11: a command's reply is as long as the room reserved for it; an error has no result, and an OK reply the
table's. -/
theorem responseLengthsOfTheTable : Obligations.ResponseLengthsOfTheTable := by
  intro i s
  have hlen := reply_bytes_length i s
  have hle := resultBytes_le i s
  refine ⟨_, _, _, exec_eq_applyReply i s, State.applyReply_rspq .., ?_, ?_, fun hst => ?_, fun hst => ?_⟩
  · rw [responseHeader_rcount _ _ (by omega), hlen]
  · rw [packWords_length, hlen, wordsFor]
  · rw [responseHeader_status, ne_eq, Status.code_toNat_eq_zero_iff] at hst
    rw [responseHeader_rcount _ _ (by omega), Reply.bytes_of_status_ne_ok hst]; rfl
  · rw [responseHeader_status, Status.code_toNat_eq_zero_iff] at hst
    rw [responseHeader_rcount _ _ (by omega), hlen]
    cases i with
    | final c => rw [resultBytes, if_pos (isOpen_of_final_ok hst)]; cases c <;> rfl
    | digest c d => cases c <;> rfl
    | _ => rfl

/-! One response for one frame (R61, R70). -/

/-- R61, R70: a step of the engine takes one whole frame and appends one response frame with its CHAN bits. -/
theorem engineStep_answers_frame {s t : State} (h : engineStep s = .next t) :
    ∃ hd data st bytes, s.cmdq = hd :: data ++ t.cmdq ∧ data.length = dataWords hd ∧
      t.rspq = s.rspq ++ responseFrame st (chanField hd) bytes ∧ st ≠ .bufferTooLarge ∧
      bytes.length ∈ [0, 4, 20, 32] := by
  rcases engineStep_next h with ⟨i, rest, e, -, he⟩ | ⟨cause, hd, rest, e, -, rfl⟩
  · obtain ⟨hd, data, hq, hlen, hchan⟩ := decodeFrame_ok_chan e
    rw [exec_eq_applyReply] at he
    cases he
    refine ⟨hd, data, ((s.consume rest).reply i).status, ((s.consume rest).reply i).bytes, ?_, hlen, ?_, ?_, ?_⟩
    · rw [State.applyReply_cmdq]; exact hq
    · rw [State.applyReply_rspq, hchan]; rfl
    · rcases reply_status i (s.consume rest) with hst | hst
      · rw [hst]; decide
      · rw [hst]; decide
    · rw [reply_bytes_length]; exact resultBytes_mem ..
  · obtain ⟨tail, hs, hl, -, rfl⟩ := decodeFrame_illegal e
    obtain ⟨data, hq, hlen⟩ := frame_split hl
    exact ⟨hd, data, .illegalCommand, [], hs.trans hq, hlen, rfl, by decide, by decide⟩

/-- R70: every step of the engine makes the response port longer. -/
theorem engineStep_rspq_length_lt {s t : State} (h : engineStep s = .next t) : s.rspq.length < t.rspq.length := by
  obtain ⟨st, chan, bytes, hr⟩ := engineStep_answers h
  rw [hr, List.length_append, responseFrame_length, responseWords]; omega

/-- R44, R70, R200: only a step of the engine makes the response port longer. -/
theorem step_grows {s t : State} (h : step s = .next t) (hlt : s.rspq.length < t.rspq.length) :
    ∃ u, engineStep u = .next t ∧ u.cmdq = s.cmdq ∧ u.rspq = s.rspq := by
  rcases step_next h with h | ⟨ts, -, rfl | h⟩ | ⟨host, w, ts, -, -, -, rfl⟩ | ⟨w, ws, ts, -, e, rfl⟩ | ⟨ts, -, rfl⟩
  · exact ⟨s, h, rfl, rfl⟩
  · exact absurd hlt (Nat.lt_irrefl _)
  · exact ⟨s.withTurns ts, h, rfl, rfl⟩
  · exact absurd hlt (Nat.lt_irrefl _)
  · rw [e, List.length_cons, State.remove_rspq] at hlt; omega
  · exact absurd hlt (Nat.not_lt_zero _)

/-- Settles O10: only the engine answers, and each of its steps answers the one frame it takes. -/
theorem oneResponseFramePerCommandFrame : Obligations.OneResponseFramePerCommandFrame := by
  refine ⟨fun s t h hlt => ?_, fun s t hT h => ?_, fun s t ts hT h => ?_⟩
  · obtain ⟨u, hu, hq, hr⟩ := step_grows h hlt
    obtain ⟨hd, data, st, bytes, hcmd, hlen, hrsp, hst, hmem⟩ := engineStep_answers_frame hu
    rw [hq] at hcmd
    rw [hr] at hrsp
    have hle : bytes.length ≤ 65535 := by
      simp only [List.mem_cons, List.not_mem_nil, or_false] at hmem; omega
    have hcount := responseHeader_rcount st (chanField hd) hle
    refine ⟨hd, data, t.cmdq, _, _, hcmd, by rw [hlen, dataWords_eq], rfl, hrsp, ?_, ?_, ?_, ?_, ?_⟩
    · rw [packWords_length, hcount, wordsFor]
    · rw [hcount]; exact hmem
    · exact responseHeader_reserved ..
    · rw [responseHeader_chan, chanField_toNat]
    · rw [responseHeader_status]
      cases st with
      | bufferTooLarge => exact absurd rfl hst
      | _ => decide
  · rw [step_of_no_turns hT] at h
    exact engineStep_rspq_length_lt h
  · rw [step_of_turn hT, turnStep] at h
    exact (engineTurn_next h).imp_right fun hs => engineStep_rspq_length_lt (s := s.withTurns ts) hs

/-! Placed table words (log 5, 12). -/

/-- Log 12: the frame of a table word is a header and its data words, and nothing behind. -/
theorem tableFrame_eq (nbits w : Nat) : ∃ h data, tableFrame nbits w = h :: data ∧ data.length = dataWords h :=
  ⟨_, _, rfl, by rw [List.length_map, List.length_range]⟩

/-- Log 12: a table word's instruction is its frame's, whatever stands behind. -/
theorem decodeFrame_tableFrame {nbits w : Nat} {i : Instr} (hi : decodeTableWord nbits w = some i) (rest : List Word) :
    decodeFrame (tableFrame nbits w ++ rest) = .ok (i, rest) := by
  obtain ⟨h, data, hframe, hlen⟩ := tableFrame_eq nbits w
  rw [decodeTableWord, hframe] at hi
  rw [hframe]
  cases hh : decodeHeader h with
  | error cause => rw [← List.append_nil (h :: data), decodeFrame_of_illegal hh hlen] at hi; cases hi
  | ok p =>
    rw [← List.append_nil (h :: data), decodeFrame_of_legal hh hlen] at hi
    cases hi
    exact decodeFrame_of_legal hh hlen rest

/-- R10, R205: an empty response port has room for every response. -/
theorem fits_of_rspq_nil {s : State} (h : s.rspq = []) (i : Instr) : s.fits (resultBytes i s) = true := by
  have := resultBytes_le i s
  rw [fits_iff, h, List.length_nil, responseWords, wordsFor, Config.rspFifoDepth]; omega

/-- Settles O14: the placed frame is whole, nothing is scheduled, and the drained port has room. -/
theorem placedTableWordRunsNext : Obligations.PlacedTableWordRunsNext := by
  intro s nbits w i hi
  have hdecode : decodeFrame (s.withFetchWord nbits w).cmdq = .ok (i, s.cmdq) := decodeFrame_tableFrame hi s.cmdq
  rw [step_of_no_turns rfl, engineStep_of_fits hdecode (fits_of_rspq_nil rfl i)]
  rfl

end Sys2Proof.Machine
end

section
/-! SUPPORT. The assembler (R69): long feeds, lines, and the pseudo-instructions. -/

namespace Sys2Proof.Machine

/-! Feeding in parts (R107). -/

/-- R107: accepting the parts of a payload one after the other is accepting the payload. -/
theorem Channel.foldl_accept_eq {n : Nat} (A : Algo n) (ch : Channel n) {parts : List (List Byte)} (h : parts ≠ []) :
    parts.foldl (Channel.accept A) ch = ch.accept A parts.flatten := by
  obtain ⟨p, parts, rfl⟩ := List.exists_cons_of_ne_nil h
  induction parts generalizing p ch with
  | nil => simp
  | cons q parts ih =>
    rw [List.foldl_cons, ih (ch.accept A p) q (List.cons_ne_nil _ _), Channel.accept_accept, ← List.flatten_cons]

/-- R107: on an open channel, feeding in parts and feeding once leave both channels alike. -/
theorem execAll_feeds_eq_feed {c : Chan} {s : State} (h : (s.channel c).phase.isOpen = true)
    {parts : List (List Byte)} (hne : parts ≠ []) :
    ∃ t u, execAll (parts.map (Instr.feed c)) s = .next t ∧ exec (.feed c parts.flatten) s = .next u ∧
      ∀ d, t.channel d = u.channel d := by
  obtain ⟨t, f, ht, -, hc, hd⟩ := execAll_feeds h parts
  refine ⟨t, _, ht, exec_feed_open h _, fun d => ?_⟩
  by_cases hdc : d = c
  · subst hdc
    rw [hc, Channel.foldl_accept_eq _ _ hne, State.applyReply_channel]; rfl
  · rw [hd d hdc, State.applyReply_channel_of_ne _ _ _ hdc]

/-! The chunks of a long feed (R69). -/

theorem feedChunks_ne_nil (fuel : Nat) (bytes : List Byte) : feedChunks fuel bytes ≠ [] := by
  cases fuel with
  | zero => exact List.cons_ne_nil _ _
  | succ fuel => rw [feedChunks]; split <;> exact List.cons_ne_nil _ _

/-- R69: the chunks joined are the bytes. -/
theorem feedChunks_flatten (fuel : Nat) (bytes : List Byte) : (feedChunks fuel bytes).flatten = bytes := by
  induction fuel generalizing bytes with
  | zero => simp [feedChunks]
  | succ fuel ih =>
    rw [feedChunks]
    split
    · simp
    · rw [List.flatten_cons, ih, List.take_append_drop]

/-- R69: no chunk is longer than a frame can carry, when there is fuel for the full ones. -/
theorem feedChunks_length_le {fuel : Nat} {bytes : List Byte} (h : bytes.length ≤ (fuel + 1) * 65535) :
    ∀ d ∈ feedChunks fuel bytes, d.length ≤ 65535 := by
  induction fuel generalizing bytes with
  | zero => simpa [feedChunks] using h
  | succ fuel ih =>
    rw [feedChunks, countMax]
    split
    · next hle => simpa using hle
    · rw [List.forall_mem_cons]
      exact ⟨by rw [List.length_take]; omega, ih (by rw [List.length_drop]; omega)⟩

/-- R69: every chunk but the last is full. -/
theorem feedChunks_dropLast_length (fuel : Nat) (bytes : List Byte) :
    ∀ d ∈ (feedChunks fuel bytes).dropLast, d.length = 65535 := by
  induction fuel generalizing bytes with
  | zero => simp [feedChunks]
  | succ fuel ih =>
    rw [feedChunks, countMax]
    split
    · simp
    · rw [List.dropLast_cons_of_ne_nil (feedChunks_ne_nil _ _), List.forall_mem_cons]
      exact ⟨by rw [List.length_take]; omega, ih _⟩

/-- R25, R103: the open phases. -/
theorem Phase.isOpen_iff (p : Phase) : p.isOpen = true ↔ p = .created ∨ p = .updating := by cases p <;> decide

/-- Settles O20: the chunks are as R69 cuts them, and on an open channel feeding them is feeding the bytes. -/
theorem longFeedIsOneFeed : Obligations.LongFeedIsOneFeed := by
  intro c bytes
  refine ⟨?_, ?_, ?_, fun s hs => ?_⟩
  · simp only [feedLong, List.forall_mem_map, Instr.wf_iff]
    exact feedChunks_length_le (by omega)
  · simp only [feedLong, ← List.map_dropLast, List.forall_mem_map]
    exact feedChunks_dropLast_length _ bytes
  · have hdata : Instr.data ∘ Instr.feed c = id := rfl
    rw [feedLong, List.map_map, hdata, List.map_id, feedChunks_flatten]
  · rw [State.phaseOf_eq_channel_phase, ← Phase.isOpen_iff] at hs
    obtain ⟨t, u, ht, hu, hch⟩ := execAll_feeds_eq_feed hs (feedChunks_ne_nil bytes.length bytes)
    rw [feedChunks_flatten] at hu
    exact ⟨t, u, ht, hu, hch .sha1, hch .sha256⟩

/-! Lines (R69). -/

theorem assemble_eq_none_iff (op : Opcode) (chan : BitVec 4) (bytes : List Byte) :
    assemble op chan bytes = none ↔ 65535 < bytes.length := by
  rw [assemble, countMax]; split <;> simp <;> omega

/-- R69: a line that assembles is a header with the channel as written, and the packed bytes. -/
theorem assemble_eq_some {op : Opcode} {chan : BitVec 4} {bytes ws : List _} (h : assemble op chan bytes = some ws) :
    bytes.length ≤ 65535 ∧ ws = headerWord op.code chan bytes.length :: packWords bytes := by
  rw [assemble, countMax] at h
  split at h
  · next hle => cases h; exact ⟨hle, rfl⟩
  · cases h

/-- R66 (L3): a channel numeral above 1 makes the header illegal. -/
theorem legalHeader_of_reserved_chan {h : Word} (hc : 2 ≤ (chanField h).toNat) : legalHeader h = false := by
  rw [← Bool.not_eq_true, legalHeader_iff_fields]; omega

/-- R69: `HASH` answers the hash of the message and leaves its channel finalized. -/
theorem execAll_hashPseudo (c : Chan) (bytes : List Byte) (s : State) :
    ∃ t f, execAll (hashPseudo c bytes) s = .next t ∧
      t.rspq = s.rspq ++ f ++ responseHeader .ok c.number (4 * c.hashWords) :: (messageHash c.algo bytes).toList ∧
      (t.channel c).phase = .finalized := by
  obtain ⟨t, f, ht, hr, hp, -, -⟩ := execAll_init_feeds_final c s (feedChunks bytes.length bytes)
  rw [feedChunks_flatten, responseFrame_serialize] at hr
  exact ⟨t, f, ht, hr, hp⟩

/-- Settles O21: a line is its command's frame, and HASH is INIT, the chunks of a long feed, and FINAL. -/
theorem assemblerLinesAndPseudoInstructions : Obligations.AssemblerLinesAndPseudoInstructions := by
  refine ⟨assemble_eq_none_iff, fun i hw => if_pos ((Instr.wf_iff i).1 hw), fun op chan bytes h ws hchan e => ?_,
    fun c bytes => rfl, execAll_hashPseudo .sha1, execAll_hashPseudo .sha256⟩
  obtain ⟨hle, hframe⟩ := assemble_eq_some e
  cases hframe
  exact ⟨legalHeader_of_reserved_chan (by rw [chanField_headerWord]; exact hchan),
    by rw [packWords_length, dataWords_headerWord _ _ hle]⟩

end Sys2Proof.Machine
end


section
/-! SUPPORT. The block buffer and the padding, counted (R102, R105, R108, R109, R209): the blocks of a message, the
sizes of a padded tail, the bytes of a length. -/

namespace Sys2Proof.Machine

/-! The blocks of a message (R102). -/

theorem length_of_mem_fullBlocks {m b : List Byte} (h : b ∈ fullBlocks m) : b.length = 64 := by
  rw [fullBlocks, List.mem_map] at h
  obtain ⟨j, hj, rfl⟩ := h
  rw [List.mem_range] at hj
  rw [List.length_take, List.length_drop]; omega

/-- R102: the blocks are the message, up to what is left behind them. -/
theorem fullBlocks_flatten_append (m : List Byte) : (fullBlocks m).flatten ++ m.drop (64 * (m.length / 64)) = m := by
  induction hk : m.length / 64 generalizing m with
  | zero => rw [fullBlocks_of_short (by omega)]; rfl
  | succ k ih =>
    have hrest := ih (m.drop 64) (by rw [List.length_drop]; omega)
    rw [List.drop_drop, show 64 + 64 * k = 64 * (k + 1) by omega] at hrest
    rw [fullBlocks_of_long (by omega), List.flatten_cons, List.append_assoc, hrest, List.take_append_drop]

/-- Settles O17: the blocks are those of the pending bytes followed by the data. -/
theorem absorbCompressesWholeBlocksInOrder : Obligations.AbsorbCompressesWholeBlocksInOrder := by
  intro pend data
  refine ⟨fullBlocks (pend ++ data), by rw [fullBlocks_length, List.length_append],
    fun b hb => length_of_mem_fullBlocks hb, fun n A H => ⟨?_, ?_, absorb_pend_length A H pend data⟩⟩
  · rw [absorb_spec]
  · rw [absorb_spec]; exact fullBlocks_flatten_append _

/-! The padded tail (R108, R109). -/

/-- R109: the length field fits behind the pending bytes. -/
theorem padZeros_of_le {k : Nat} (h : k ≤ 55) : padZeros k = 55 - k := by rw [padZeros]; omega

/-- R109: the length field takes a second block. -/
theorem padZeros_of_gt {k : Nat} (h : 56 ≤ k) (h' : k ≤ 63) : padZeros k = 119 - k := by rw [padZeros]; omega

/-- R109: with the bytes of a whole message in front, the padding fills one block or two behind its whole blocks. -/
theorem pad_length_eq (m : List Byte) (total : Word64) :
    (pad m total).length = 64 * (if m.length % 64 ≤ 55 then m.length / 64 + 1 else m.length / 64 + 2) := by
  rw [pad_length, padZeros]; split <;> omega

/-- The bits of a part are bits of the whole. -/
theorem extractLsb'_extractLsb' {w a n start len : Nat} (x : BitVec w) (h : start + len ≤ n) :
    (x.extractLsb' a n).extractLsb' start len = x.extractLsb' (a + start) len := by
  refine BitVec.eq_of_getLsbD_eq fun i hi => ?_
  simp only [BitVec.getLsbD_extractLsb', hi, show start + i < n by omega, decide_true, Bool.true_and, Nat.add_assoc]

/-- R13: the big-endian bytes of a 64-bit value. -/
theorem be64_getD (x : Word64) {k : Nat} (hk : k < 8) : (be64 x).getD k 0 = x.extractLsb' (56 - 8 * k) 8 := by
  by_cases hhigh : k < 4
  · rw [be64, List.getD_append _ _ _ _ hhigh, be32_getD _ hhigh, extractLsb'_extractLsb' _ (by omega)]
    congr 1; omega
  · rw [be64, List.getD_append_right _ _ _ _ (by rw [be32_length]; omega), be32_length, be32_getD _ (by omega),
      extractLsb'_extractLsb' _ (by omega)]
    congr 1; omega

/-- Settles O22: the number of zero bytes is read off the number of pending bytes, and a message's length off its
padding. -/
theorem paddedTailSizes : Obligations.PaddedTailSizes := by
  refine ⟨fun pend total h => ⟨?_, ?_⟩, fun pend total h h' => ⟨?_, ?_⟩,
    fun total => ⟨be64_length total, fun k hk => ?_⟩, fun m => pad_length_eq m _⟩
  · rw [pad, padZeros_of_le h]
  · rw [pad_length, padZeros_of_le h]; omega
  · rw [pad, padZeros_of_gt h h']
  · rw [pad_length, padZeros_of_gt h h']; omega
  · rw [be64_getD _ hk, BitVec.extractLsb'_toNat, Nat.shiftRight_eq_div_pow]

/-! How many blocks (R209). -/

/-- Settles O37: each command folds over the blocks of the bytes it compresses, which are counted by their length. -/
theorem compressionStepsPerCommand : Obligations.CompressionStepsPerCommand := by
  refine ⟨fun pend data => ⟨fullBlocks (pend ++ data), ?_, fun hp hd => ?_, fun n A ch e => ?_⟩,
    fun pend total h => ⟨fullBlocks (pad pend total), ?_, fun n A ch e e' => ?_⟩,
    fun data => ⟨fullBlocks (paddedMessage data), ?_, fun h => ?_, fun n A => digestWords_spec A data⟩⟩
  · rw [fullBlocks_length, List.length_append]
  · rw [fullBlocks_length, List.length_append]; omega
  · rw [Channel.accept, e, absorb_spec]
  · rw [fullBlocks_length, pad_length_eq]; split <;> split <;> omega
  · rw [Channel.finish, e, e', compressBlocks_spec]
  · rw [fullBlocks_length, paddedMessage, pad_length_eq]; omega
  · rw [fullBlocks_length, paddedMessage, pad_length_eq]; split <;> omega

end Sys2Proof.Machine
end

section
/-! SUPPORT. The commands of the block buffer on one channel (R101, R103, R110, R115): their frames, what they do to an
open channel and to one that is not open. -/

namespace Sys2Proof

/-- R61, R62, R64: a header that an operation may carry, with its data words, decodes to the operation on its channel,
with the payload that the data words carry. -/
theorem decodeFrame_headerWord {op : Opcode} {n : Nat} (c : Chan) (hn : n ≤ 65535)
    (hp : op.hasPayload = true ∨ n = 0) {ws : List Word} (hws : ws.length = (n + 3) / 4) (rest : List Word) :
    decodeFrame (headerWord op.code c.number n :: ws ++ rest) = .ok (Instr.ofParts op c (payload n ws), rest) := by
  rw [decodeFrame_of_legal (decodeHeader_headerWord op c hn hp) (by rw [hws, dataWords_headerWord _ _ hn, wordsFor]),
    countField_headerWord _ _ hn]

/-- R61: a header with COUNT 0 is a whole frame. -/
theorem decodeFrame_header (op : Opcode) (c : Chan) (rest : List Word) :
    decodeFrame (headerWord op.code c.number 0 :: rest) = .ok (Instr.ofParts op c [], rest) :=
  decodeFrame_headerWord c (Nat.zero_le _) (.inr rfl) (ws := []) rfl rest

/-- R62: a header word as a number. -/
theorem headerWord_eq_ofNat (op : BitVec 8) (c : BitVec 4) {n : Nat} (hn : n ≤ 65535) :
    headerWord op c n = BitVec.ofNat 32 (op.toNat * 2 ^ 24 + c.toNat * 2 ^ 20 + n) := by
  have hval := headerWord_toNat op c n
  rw [Nat.mod_eq_of_lt (by omega)] at hval
  rw [← hval, BitVec.ofNat_toNat, BitVec.setWidth_eq]

end Sys2Proof

namespace Sys2Proof.Machine

/-- R25, R103: the phases that are not open. -/
theorem Phase.isOpen_eq_false_iff (p : Phase) : p.isOpen = false ↔ p = .none ∨ p = .finalized := by cases p <;> decide

/-- R103: FEED on a channel that is not open answers INVALID_STATE. -/
theorem exec_feed_closed {c : Chan} {s : State} (h : (s.channel c).phase.isOpen = false) (d : List Byte) :
    exec (.feed c d) s = .next (s.raise .invalidState c.number) := by
  have hreply : s.reply (.feed c d) = .raised .invalidState := feedCommand_closed _ d h
  rw [exec_eq_applyReply, hreply]; cases c <;> rfl

/-- R110: FINAL on a channel that is not open answers INVALID_STATE. -/
theorem exec_final_closed {c : Chan} {s : State} (h : (s.channel c).phase.isOpen = false) :
    exec (.final c) s = .next (s.raise .invalidState c.number) := by
  have hreply : s.reply (.final c) = .raised .invalidState := finalCommand_closed _ h
  rw [exec_eq_applyReply, hreply]; cases c <;> rfl

/-- R115: STATUS answers the STATUS word and leaves the channel as it is. -/
theorem exec_status (c : Chan) (s : State) :
    exec (.status c) s = .next (s.applyReply c (.done (s.channel c) (be32 (s.channel c).statusWord))) :=
  exec_eq_applyReply (.status c) s

/-- R170, R173: DIGEST answers the hash of its payload and leaves the channel as it is. -/
theorem exec_digest (c : Chan) (d : List Byte) (s : State) :
    exec (.digest c d) s = .next (s.applyReply c (.done (s.channel c) (serialize (messageHash c.algo d)))) := by
  rw [← digestWords_spec]; exact exec_eq_applyReply (.digest c d) s

/-! What a command that answers OK leaves, field by field (R100). -/

theorem State.applyReply_done_sha1 (s : State) (ch : Channel Chan.sha1.hashWords) (b : List Byte) :
    s.applyReply .sha1 (.done ch b) = { s with ch0 := ch, rspq := s.rspq ++ responseFrame .ok 0 b } := rfl

theorem State.applyReply_done_sha256 (s : State) (ch : Channel Chan.sha256.hashWords) (b : List Byte) :
    s.applyReply .sha256 (.done ch b) = { s with ch1 := ch, rspq := s.rspq ++ responseFrame .ok 1 b } := rfl

/-- R70: the response frame of a one-word result. -/
theorem responseFrame_be32 (st : Status) (chan : BitVec 4) (x : Word) :
    responseFrame st chan (be32 x) = [responseHeader st chan 4, x] := by
  have hpack : packWords ([x].flatMap be32) = [x] := packWords_flatMap_be32 [x]
  rw [List.flatMap_singleton] at hpack
  rw [responseFrame, hpack, be32_length]

/-! The commands of the block buffer. -/

/-- Settles O15: INIT's frame is its header, and its reply is the created channel. -/
theorem initCreatesANewInstance : Obligations.InitCreatesANewInstance :=
  ⟨fun rest => ⟨decodeFrame_header .init .sha1 rest, decodeFrame_header .init .sha256 rest⟩,
    exec_init .sha1, exec_init .sha256⟩

/-- Settles O16: the header of every COUNT is FEED's, and the reply depends on whether the channel is open. -/
theorem feedAbsorbsOnAnOpenChannel : Obligations.FeedAbsorbsOnAnOpenChannel := by
  refine ⟨fun n ws rest hn hws => ?_, fun s data h => ?_, fun s data h => ?_, fun s data h => ?_, fun s data h => ?_⟩
  · have hframe (c : Chan) := decodeFrame_headerWord (op := .feed) c hn (.inl rfl) hws rest
    simp only [headerWord_eq_ofNat _ _ hn] at hframe
    exact ⟨hframe .sha1, hframe .sha256⟩
  · rw [exec_feed_open (c := .sha1) ((Phase.isOpen_iff _).2 h), State.applyReply_done_sha1]; rfl
  · rw [exec_feed_open (c := .sha256) ((Phase.isOpen_iff _).2 h), State.applyReply_done_sha256]; rfl
  · exact exec_feed_closed (c := .sha1) ((Phase.isOpen_eq_false_iff _).2 h) data
  · exact exec_feed_closed (c := .sha256) ((Phase.isOpen_eq_false_iff _).2 h) data

/-- Settles O23: FINAL's frame is its header; the reply depends on whether the channel is open, and packing undoes
serializing. -/
theorem finalPadsAndAnswersTheDigest : Obligations.FinalPadsAndAnswersTheDigest := by
  refine ⟨fun rest => ⟨decodeFrame_header .final .sha1 rest,
    decodeFrame_header .final .sha256 rest⟩, fun s h => ?_, fun s h => ?_, fun s h => ?_, fun s h => ?_⟩
  · rw [exec_final_open (c := .sha1) ((Phase.isOpen_iff _).2 h), State.applyReply_done_sha1, responseFrame_serialize]
    rfl
  · rw [exec_final_open (c := .sha256) ((Phase.isOpen_iff _).2 h), State.applyReply_done_sha256,
      responseFrame_serialize]
    rfl
  · exact exec_final_closed (c := .sha1) ((Phase.isOpen_eq_false_iff _).2 h)
  · exact exec_final_closed (c := .sha256) ((Phase.isOpen_eq_false_iff _).2 h)

/-! The length counter (R106). -/

/-- R106: accepting data adds its bits to the length modulo 2^64, and a carry sets the wrap flag, which stays set; the
example is R106's own. -/
theorem Channel.accept_length {n : Nat} (A : Algo n) (ch : Channel n) (data : List Byte) :
    (ch.accept A data).total.toNat = (ch.total.toNat + 8 * data.length) % 2 ^ 64 ∧
    ((ch.accept A data).lenwrap = true ↔ ch.lenwrap = true ∨ 2 ^ 64 ≤ ch.total.toNat + 8 * data.length) ∧
    (ch.total.toNat = 2 ^ 64 - 16 → data.length = 3 →
      (ch.accept A data).total = 8 ∧ (ch.accept A data).lenwrap = true) := by
  have htotal : (ch.accept A data).total.toNat = (ch.total.toNat + 8 * data.length) % 2 ^ 64 := addLength_toNat ..
  have hwrap : (ch.accept A data).lenwrap = true ↔ ch.lenwrap = true ∨ 2 ^ 64 ≤ ch.total.toNat + 8 * data.length := by
    rw [Channel.accept, Bool.or_eq_true, lengthCarries, decide_eq_true_iff]
  refine ⟨htotal, hwrap, fun ht hd => ⟨BitVec.eq_of_toNat_eq ?_, hwrap.2 (.inr (by omega))⟩⟩
  rw [htotal, ht, hd]; rfl

/-- Settles O18: FEED on an open channel accepts its payload. -/
theorem lengthCounterWrapsVisibly : Obligations.LengthCounterWrapsVisibly := by
  refine ⟨fun s data h => ?_, fun s data h => ?_⟩
  · exact ⟨_, exec_feed_open (c := .sha1) ((Phase.isOpen_iff _).2 h) data, Channel.accept_length algo1 s.ch0 data⟩
  · exact ⟨_, exec_feed_open (c := .sha256) ((Phase.isOpen_iff _).2 h) data, Channel.accept_length algo256 s.ch1 data⟩

/-- Settles O19: accepting the parts one after the other is accepting the whole. -/
theorem feedingInPartsIsFeedingOnce : Obligations.FeedingInPartsIsFeedingOnce := by
  refine ⟨fun s parts h hne => ?_, fun s parts h hne => ?_⟩
  · obtain ⟨t, u, ht, hu, hch⟩ := execAll_feeds_eq_feed (c := .sha1) ((Phase.isOpen_iff _).2 h) hne
    exact ⟨t, u, ht, hu, hch .sha1, hch .sha256⟩
  · obtain ⟨t, u, ht, hu, hch⟩ := execAll_feeds_eq_feed (c := .sha256) ((Phase.isOpen_iff _).2 h) hne
    exact ⟨t, u, ht, hu, hch .sha1, hch .sha256⟩

/-! STATUS (R30, R115). -/

/-- R30: with less than a block pending, the fields of the STATUS word do not overlap. -/
theorem Channel.statusWord_toNat {n : Nat} {ch : Channel n} (h : ch.pend.length ≤ 63) :
    ch.statusWord.toNat = ch.phase.code.toNat + (if ch.lenwrap then 4 else 0) + 256 * ch.pend.length := by
  have hlow : (ch.phase.code.zeroExtend 32 ||| ((BitVec.ofBool ch.lenwrap).zeroExtend 32 <<< 2)).toNat =
      ch.phase.code.toNat + (if ch.lenwrap then 4 else 0) := by
    cases ch.phase <;> cases ch.lenwrap <;> rfl
  have hpend : (BitVec.ofNat 32 ch.pend.length <<< 8).toNat = 2 ^ 8 * ch.pend.length := by
    rw [BitVec.toNat_shiftLeft, BitVec.toNat_ofNat, Nat.shiftLeft_eq]; omega
  have hlt : ch.phase.code.toNat + (if ch.lenwrap then 4 else 0) < 2 ^ 8 := by
    have := ch.phase.code.isLt
    split <;> omega
  rw [Channel.statusWord, BitVec.toNat_or, hlow, hpend, Nat.or_comm, ← Nat.two_pow_add_eq_or_of_lt hlt, Nat.add_comm]

/-- Settles O26: STATUS's frame is its header, and its reply is the STATUS word. -/
theorem statusAnswersTheStatusWord : Obligations.StatusAnswersTheStatusWord := by
  refine ⟨fun rest => ⟨decodeFrame_header .status .sha1 rest,
    decodeFrame_header .status .sha256 rest⟩, fun s => ?_, fun s => ?_, fun n ch => rfl, fun n ch h => ?_⟩
  · rw [exec_status, State.applyReply_done_sha1, responseFrame_be32]; rfl
  · rw [exec_status, State.applyReply_done_sha256, responseFrame_be32]; rfl
  · rw [Channel.statusWord_toNat h]
    cases ch.phase <;> rfl

/-! The empty message (R113). -/

/-- R105: the blocks of one block's worth of bytes. -/
theorem fullBlocks_of_one {m : List Byte} (h : m.length = 64) : fullBlocks m = [m] := by
  rw [fullBlocks_of_long h.ge, fullBlocks_of_short (by rw [List.length_drop]; omega), List.take_of_length_le h.le]

/-- R113: the padding of the empty message is the one block `80 00 … 00`. -/
theorem messageHash_nil {n : Nat} (A : Algo n) :
    messageHash A [] = A.compress A.iv (0x80 :: List.replicate 63 0) := by
  have hpad : paddedMessage [] = 0x80 :: List.replicate 63 0 := by decide
  rw [messageHash, hpad, fullBlocks_of_one rfl]; rfl

/-- R113, R171: by any of its three routes a channel's empty message is answered with its hash. -/
theorem emptyMessage_answers (c : Chan) (s : State) : ∃ t u v f g,
    execAll [.init c, .final c] s = .next t ∧ execAll [.init c, .feed c [], .final c] s = .next u ∧
    exec (.digest c []) s = .next v ∧
    t.rspq = s.rspq ++ f ++ responseFrame .ok c.number (serialize (messageHash c.algo [])) ∧
    u.rspq = s.rspq ++ g ++ responseFrame .ok c.number (serialize (messageHash c.algo [])) ∧
    v.rspq = s.rspq ++ responseFrame .ok c.number (serialize (messageHash c.algo [])) := by
  obtain ⟨t, f, ht, hrt, -⟩ := execAll_init_feeds_final c s []
  obtain ⟨u, g, hu, hru, -⟩ := execAll_init_feeds_final c s [[]]
  exact ⟨t, u, _, f, g, ht, hu, exec_digest c [] s, hrt, hru, State.applyReply_rspq ..⟩

/-- Settles O30: the padding of the empty message is one block. -/
theorem emptyMessageIsOnePaddingBlock : Obligations.EmptyMessageIsOnePaddingBlock := by
  refine ⟨fun s => ?_, fun s => ?_⟩
  · have h := emptyMessage_answers .sha1 s
    rw [messageHash_nil, responseFrame_serialize] at h; exact h
  · have h := emptyMessage_answers .sha256 s
    rw [messageHash_nil, responseFrame_serialize] at h; exact h

end Sys2Proof.Machine
end

section
/-! SUPPORT. The life of a channel (R114, R116): the transition table of its phase, and what can change a finalized
channel. -/

namespace Sys2Proof.Machine

/-! The transition table (R116). -/

/-- R116: the phase after an operation, and the status it answers, by the phase before. -/
def transition : Opcode → Phase → Phase × Status
  | .init, _ => (.created, .ok)
  | .feed, p => if p.isOpen then (.updating, .ok) else (p, .invalidState)
  | .final, p => if p.isOpen then (.finalized, .ok) else (p, .invalidState)
  | .digest, p => (p, .ok)
  | .dlen, p => (p, .ok)
  | .status, p => (p, .ok)

/-- R116: every command's reply is as the table says. -/
theorem commandReply_transition {n : Nat} (A : Algo n) (ch : Channel n) (i : Instr) :
    (((commandReply i n A ch).channel ch).phase, (commandReply i n A ch).status) = transition i.opcode ch.phase := by
  cases i with
  | feed c d =>
    rw [commandReply, Instr.opcode, transition]
    cases ho : ch.phase.isOpen with
    | true => rw [feedCommand_open A d ho]; rfl
    | false => rw [feedCommand_closed A d ho]; rfl
  | final c =>
    rw [commandReply, Instr.opcode, transition]
    cases ho : ch.phase.isOpen with
    | true => rw [finalCommand_open A ho]; rfl
    | false => rw [finalCommand_closed A ho]; rfl
  | _ => rfl

/-- R70, R116: a command answers one response frame, its channel's phase and its status by the table. -/
theorem exec_transition (i : Instr) (s : State) : ∃ t rh rd, exec i s = .next t ∧ t.rspq = s.rspq ++ rh :: rd ∧
    t.phaseOf i.chan = (transition i.opcode (s.phaseOf i.chan)).1 ∧
    rh.toNat / 2 ^ 24 = (transition i.opcode (s.phaseOf i.chan)).2.code.toNat := by
  refine ⟨_, _, _, exec_eq_applyReply i s, State.applyReply_rspq .., ?_, ?_⟩
  · rw [State.phaseOf_eq_channel_phase, State.phaseOf_eq_channel_phase, State.applyReply_channel,
      ← commandReply_transition i.chan.algo]; rfl
  · rw [responseHeader_status, State.phaseOf_eq_channel_phase, ← commandReply_transition i.chan.algo]; rfl

/-- R66: with nothing scheduled, a step on an illegal frame rejects it. -/
theorem step_of_illegal {s t : State} {cause : IllegalCause} {h : Word} {rest : List Word} (hT : s.env.turns = [])
    (e : decodeFrame s.cmdq = .error (.illegal cause h rest)) (hs : step s = .next t) : t = rejectFrame h rest s := by
  rw [step_of_no_turns hT] at hs
  rcases engineStep_next hs with ⟨i, rest', e', -, -⟩ | ⟨cause', h', rest', e', -, rfl⟩
  · rw [e] at e'; cases e'
  · rw [e] at e'; cases e'; rfl

/-- R113, R116: where the invariant holds, FINAL in phase CREATED answers what DIGEST of no bytes does. -/
theorem final_of_created {c : Chan} {s : State} (hs : s.Inv) (hp : s.phaseOf c = .created) :
    ∃ t u frame, exec (.final c) s = .next t ∧ t.rspq = s.rspq ++ frame ∧
      exec (.digest c []) s = .next u ∧ u.rspq = s.rspq ++ frame := by
  obtain ⟨hch, -, -⟩ := s.inv_iff.1 hs
  rw [State.phaseOf_eq_channel_phase] at hp
  have hholds : (s.channel c).Holds c.algo [] := by
    have hinv := hch c
    rw [Channel.Inv, hp] at hinv; exact hinv
  have hopen : (s.channel c).phase.isOpen = true := by rw [hp]; rfl
  refine ⟨_, _, _, exec_final_open hopen, State.applyReply_rspq .., exec_digest c [] s, ?_⟩
  rw [State.applyReply_rspq, Channel.finish_holds _ hholds]; rfl

/-- Settles O32: the table is every reply's, and an illegal frame is only rejected. -/
theorem phaseTransitionTable : Obligations.PhaseTransitionTable := by
  refine ⟨fun i s => ?_, fun s t cause h rest hT e hs => ?_, fun c s hs hp => final_of_created hs hp⟩
  · obtain ⟨t, rh, rd, ht, hr, hphase, hstatus⟩ := exec_transition i s
    refine ⟨t, rh, rd, ht, hr, ?_⟩
    rw [hphase, hstatus]
    cases i.opcode <;> cases s.phaseOf i.chan <;> rfl
  · rw [step_of_illegal hT e hs]
    exact ⟨rfl, rfl, _, rfl, responseHeader_status ..⟩

/-! FINALIZED is terminal (R114). -/

/-- R114: on a finalized channel every command but INIT leaves the channel as it is. -/
theorem reply_channel_of_finalized {i : Instr} {s : State} (hp : (s.channel i.chan).phase = .finalized)
    (hi : i.opcode ≠ .init) : (s.reply i).channel (s.channel i.chan) = s.channel i.chan := by
  have hclosed : (s.channel i.chan).phase.isOpen = false := by rw [hp]; rfl
  cases i with
  | init c => exact absurd rfl hi
  | feed c d => exact congrArg (Reply.channel · _) (feedCommand_closed _ d hclosed)
  | final c => exact congrArg (Reply.channel · _) (finalCommand_closed _ hclosed)
  | _ => rfl

/-- R114: a command that changes a finalized channel is its INIT. -/
theorem eq_init_of_exec_channel_ne {i : Instr} {s t : State} {d : Chan} (h : exec i s = .next t)
    (hp : (s.channel d).phase = .finalized) (hne : t.channel d ≠ s.channel d) : i = .init d := by
  by_cases hd : d = i.chan
  · subst hd
    rw [exec_channel h] at hne
    have hi : i.opcode = .init := by
      by_contra hi
      exact hne (reply_channel_of_finalized hp hi)
    cases i with
    | init c => rfl
    | _ => cases hi
  · exact absurd (exec_channel_of_ne h hd) hne

/-- R114: a step of the engine that changes a finalized channel ran the INIT at the head of the command port. -/
theorem engineStep_changes_finalized {s t : State} {d : Chan} (h : engineStep s = .next t)
    (hp : (s.channel d).phase = .finalized) (hne : t.channel d ≠ s.channel d) :
    ∃ rest, decodeFrame s.cmdq = .ok (.init d, rest) ∧ t.cmdq = rest ∧
      t.rspq = s.rspq ++ responseFrame .ok d.number [] ∧ t.channel d = Channel.create d.algo := by
  rcases engineStep_next h with ⟨i, rest, e, -, he⟩ | ⟨cause, hd, rest, -, -, rfl⟩
  · rw [← s.consume_channel rest] at hp hne
    obtain rfl := eq_init_of_exec_channel_ne he hp hne
    rw [exec_init] at he
    cases he
    exact ⟨rest, e, State.applyReply_cmdq .., State.applyReply_rspq .., State.applyReply_channel ..⟩
  · rw [rejectFrame, State.raise_channel, State.consume_channel] at hne
    exact absurd rfl hne

@[simp] theorem State.withTurns_channel (s : State) (ts : List Turn) (c : Chan) :
    (s.withTurns ts).channel c = s.channel c := by cases c <;> rfl

@[simp] theorem State.append_channel (s : State) (host : Nat) (w : Word) (c : Chan) :
    (s.append host w).channel c = s.channel c := by cases c <;> rfl

@[simp] theorem State.remove_channel (s : State) (w : Word) (ws : List Word) (c : Chan) :
    (s.remove w ws).channel c = s.channel c := by cases c <;> rfl

/-- R35: reset leaves every channel in phase NONE. -/
@[simp] theorem State.resetBlock_channel_phase (s : State) (c : Chan) : (s.resetBlock.channel c).phase = .none := by
  cases c <;> rfl

/-- R114: a step that changes a finalized channel ran its INIT, or it was a reset. -/
theorem step_changes_finalized {s t : State} {d : Chan} (h : step s = .next t)
    (hp : (s.channel d).phase = .finalized) (hne : t.channel d ≠ s.channel d) :
    (∃ rest, decodeFrame s.cmdq = .ok (.init d, rest) ∧ t.cmdq = rest ∧
      t.rspq = s.rspq ++ responseFrame .ok d.number [] ∧ t.channel d = Channel.create d.algo) ∨
    (s.env.turns.head? = some .reset ∧ (t.channel d).phase = .none) := by
  rcases step_next h with h | ⟨ts, -, rfl | h⟩ | ⟨host, w, ts, -, -, -, rfl⟩ | ⟨w, ws, ts, -, -, rfl⟩ | ⟨ts, hT, rfl⟩
  · exact .inl (engineStep_changes_finalized h hp hne)
  · exact absurd (s.withTurns_channel ts d) hne
  · rw [← s.withTurns_channel ts] at hp hne
    have hinit := engineStep_changes_finalized h hp hne
    exact .inl hinit
  · simp at hne
  · simp at hne
  · exact .inr ⟨by rw [hT]; rfl, State.resetBlock_channel_phase _ d⟩

/-- R114: on a finalized channel every command but INIT leaves both channels as they are, FEED and FINAL answer
INVALID_STATE and the others OK. -/
theorem exec_on_finalized {i : Instr} {s : State} (hp : s.phaseOf i.chan = .finalized) (hi : i.opcode ≠ .init) :
    ∃ t rh rd, exec i s = .next t ∧ (∀ d, t.channel d = s.channel d) ∧ t.rspq = s.rspq ++ rh :: rd ∧
      rh.toNat / 2 ^ 24 = if i.opcode = .feed ∨ i.opcode = .final then 1 else 0 := by
  obtain ⟨t, rh, rd, ht, hr, -, hstatus⟩ := exec_transition i s
  rw [hp] at hstatus
  rw [State.phaseOf_eq_channel_phase] at hp
  refine ⟨t, rh, rd, ht, fun d => ?_, hr, hstatus.trans ?_⟩
  · exact exec_channel_rel ht (fun a b => b = a) (fun _ => rfl) (reply_channel_of_finalized hp hi) d
  · cases i.opcode <;> rfl

/-- Settles O25: only INIT's reply changes a finalized channel, and only the engine and reset change any channel. -/
theorem finalizedIsTerminal : Obligations.FinalizedIsTerminal := by
  refine ⟨fun i s hp hi => ?_, fun s t h hp hne => ?_, fun s t h hp hne => ?_⟩
  · obtain ⟨t, rh, rd, ht, hch, hr, hstatus⟩ := exec_on_finalized hp hi
    exact ⟨t, rh, rd, ht, hch .sha1, hch .sha256, hr, hstatus⟩
  · exact step_changes_finalized (d := .sha1) h hp hne
  · exact step_changes_finalized (d := .sha256) h hp hne

end Sys2Proof.Machine
end

section
/-! SUPPORT. The SHA-1 compression step (R131 to R138): what a mixing function gives in a bit, the words a schedule
starts with, and one round with the function and constant of its phase. -/

namespace Sys2Proof.Machine

/-! The mixing functions in a bit (R132, R152). -/

theorem choose_getLsbD (x y z : Word) {i : Nat} (h : i < 32) :
    (choose x y z).getLsbD i = if x.getLsbD i then y.getLsbD i else z.getLsbD i := by
  have hbits : (choose x y z).getLsbD i = ((x.getLsbD i && y.getLsbD i) ^^ (!x.getLsbD i && z.getLsbD i)) := by
    simp [choose, h]
  rw [hbits]
  cases x.getLsbD i with
  | true => simp
  | false => simp

theorem parity_getLsbD_iff (x y z : Word) (i : Nat) :
    (parity x y z).getLsbD i = true ↔
      ((x.getLsbD i).toNat + (y.getLsbD i).toNat + (z.getLsbD i).toNat) % 2 = 1 := by
  have hodd : ∀ a b c : Bool, (a ^^ b ^^ c) = true ↔ (a.toNat + b.toNat + c.toNat) % 2 = 1 := by decide
  rw [parity, BitVec.getLsbD_xor, BitVec.getLsbD_xor, hodd]

theorem majority_getLsbD_iff (x y z : Word) (i : Nat) :
    (majority x y z).getLsbD i = true ↔
      2 ≤ (x.getLsbD i).toNat + (y.getLsbD i).toNat + (z.getLsbD i).toNat := by
  have htwo : ∀ a b c : Bool, ((a && b) ^^ (a && c) ^^ (b && c)) = true ↔ 2 ≤ a.toNat + b.toNat + c.toNat := by decide
  rw [majority, BitVec.getLsbD_xor, BitVec.getLsbD_xor, BitVec.getLsbD_and, BitVec.getLsbD_and, BitVec.getLsbD_and, htwo]

/-- Settles O47: each mixing function acts on the three bits of one place alone. -/
theorem mixingFunctionsBitByBit : Obligations.MixingFunctionsBitByBit := fun x y z i h =>
  ⟨choose_getLsbD x y z h, parity_getLsbD_iff x y z i, majority_getLsbD_iff x y z i⟩

/-! The message schedule (R133, R134). -/

/-- R133, R155: the first words of a schedule that starts with the loaded block. -/
theorem getD_of_take_eq_loadBlock {W : List Word} {B : List Byte} (hfirst : W.take 16 = loadBlock B) {i : Nat}
    (hi : i < 16) : W.getD i 0 =
      be32dec (B.getD (4 * i) 0) (B.getD (4 * i + 1) 0) (B.getD (4 * i + 2) 0) (B.getD (4 * i + 3) 0) := by
  rw [← loadBlock_getD B hi, ← hfirst, List.getD_eq_getElem?_getD, List.getD_eq_getElem?_getD,
    List.getElem?_take_of_lt hi]

/-- Settles O49: the schedule starts with the loaded block, and every word behind it follows the recurrence. -/
theorem sha1ScheduleRecurrence : Obligations.Sha1ScheduleRecurrence := by
  intro B
  obtain ⟨hlength, hfirst, hlater⟩ := schedule1_spec B
  refine ⟨hlength, fun i hi => getD_of_take_eq_loadBlock hfirst hi, fun t h1 h2 => ?_⟩
  rw [hlater t h1 h2, rotl_eq_rotateLeft _ (by decide)]

/-! The rounds (R131, R132, R136). -/

/-- R132, C7: choice in the first phase, majority in the third, parity in the two others. -/
theorem f1_eq_by_phase (t : Nat) (x y z : Word) :
    f1 t x y z =
      if t < 20 then choose x y z else if 40 ≤ t ∧ t < 60 then majority x y z else parity x y z := by
  rw [f1]
  by_cases h20 : t < 20
  · rw [if_pos h20, if_pos h20]
  rw [if_neg h20, if_neg h20]
  by_cases h40 : t < 40
  · rw [if_pos h40, if_neg (by omega)]
  rw [if_neg h40]
  by_cases h60 : t < 60
  · rw [if_pos h60, if_pos (by omega)]
  · rw [if_neg h60, if_neg (by omega)]

/-- R136: one round, with the library's rotation. -/
theorem round1_eq (W : List Word) (r : Rounds1) (t : Nat) :
    round1 W r t =
      { a := r.a.rotateLeft 5 + f1 t r.b r.c r.d + r.e + k1 t + W.getD t 0
        b := r.a
        c := r.b.rotateLeft 30
        d := r.c
        e := r.d } := by
  rw [round1, rotl_eq_rotateLeft _ (by decide), rotl_eq_rotateLeft _ (by decide)]

/-- Settles O50: the start and the addition are the definitions, and a round takes its function and constant by phase. -/
theorem sha1RoundsAndResult : Obligations.Sha1RoundsAndResult := by
  refine fun H W B => ⟨rfl, fun t _ => ?_, rfl⟩
  rw [rounds1_succ, round1_eq, f1_eq_by_phase, k1]

end Sys2Proof.Machine
end

section
/-! SUPPORT. The SHA-256 compression step (R151 to R159): the rotations as arithmetic, the sigma functions by the
library's rotation, and the words a round adds up. -/

namespace Sys2Proof.Machine

/-! The rotations and the sigma functions (R12, R153, R154). -/

/-- The low bits that a rotation brings in are disjoint from the high bits it keeps, so their union is their sum. -/
theorem mul_two_pow_mod_or {a q n w : Nat} (hn : n ≤ w) (hq : q < 2 ^ n) :
    a * 2 ^ n % 2 ^ w ||| q = (a * 2 ^ n + q) % 2 ^ w := by
  have hqw : q % 2 ^ w = q := Nat.mod_eq_of_lt (hq.trans_le (Nat.pow_le_pow_right Nat.two_pos hn))
  rw [Nat.mul_comm, Nat.two_pow_add_eq_or_of_lt hq, Nat.or_mod_two_pow, hqw]

/-- R12: `ROTL^n` as arithmetic. -/
theorem rotl_toNat (x : Word) {n : Nat} (h : n ≤ 32) :
    (rotl n x).toNat = (x.toNat * 2 ^ n + x.toNat / 2 ^ (32 - n)) % 2 ^ 32 := by
  have hlow : x.toNat / 2 ^ (32 - n) < 2 ^ n := Nat.div_lt_of_lt_mul (by rw [Nat.pow_sub_mul_pow 2 h]; exact x.isLt)
  rw [rotl, BitVec.toNat_or, BitVec.toNat_shiftLeft, BitVec.toNat_ushiftRight, Nat.shiftLeft_eq,
    Nat.shiftRight_eq_div_pow, mul_two_pow_mod_or h hlow]

/-- R12: rotating right by `n` is rotating left by the rest of the width. -/
theorem rotr_eq_rotl (x : Word) {n : Nat} (h : n ≤ 32) : rotr n x = rotl (32 - n) x := by
  rw [rotr, rotl, BitVec.or_comm, Nat.sub_sub_self h]

/-- R12: `ROTR^n` as arithmetic. -/
theorem rotr_toNat (x : Word) {n : Nat} (h : n ≤ 32) :
    (rotr n x).toNat = (x.toNat / 2 ^ n + x.toNat * 2 ^ (32 - n)) % 2 ^ 32 := by
  rw [rotr_eq_rotl x h, rotl_toNat x (Nat.sub_le 32 n), Nat.sub_sub_self h, Nat.add_comm]

/-- R12: `SHR^n` as arithmetic. -/
theorem shr_toNat (n : Nat) (x : Word) : (shr n x).toNat = x.toNat / 2 ^ n := by
  rw [shr, BitVec.toNat_ushiftRight, Nat.shiftRight_eq_div_pow]

/-- Settles O48: kept and incoming bits of a rotation add up, and the sigma functions rotate as the library does. -/
theorem rotationsAndSigmaFunctions : Obligations.RotationsAndSigmaFunctions := by
  refine ⟨fun x n _ h => ⟨rotl_toNat x h.le, rotr_toNat x h.le, shr_toNat n x⟩, fun x => ?_⟩
  have hrot {n : Nat} (h : n < 32) : rotr n x = x.rotateRight n := rotr_eq_rotateRight x h
  refine ⟨?_, ?_, ?_, ?_⟩
  · rw [bigSigma0, hrot (by decide), hrot (by decide), hrot (by decide)]
  · rw [bigSigma1, hrot (by decide), hrot (by decide), hrot (by decide)]
  · rw [smallSigma0, hrot (by decide), hrot (by decide), shr]
  · rw [smallSigma1, hrot (by decide), hrot (by decide), shr]

/-! The message schedule (R155, R156). -/

/-- Settles O51: the schedule starts with the loaded block, and every word behind it follows the recurrence. -/
theorem sha256ScheduleRecurrence : Obligations.Sha256ScheduleRecurrence := by
  intro B
  obtain ⟨hlength, hfirst, hlater⟩ := schedule256_spec B
  exact ⟨hlength, fun i hi => getD_of_take_eq_loadBlock hfirst hi, hlater⟩

/-! The rounds (R151, R157, R158). -/

/-- Settles O52: table, start and addition are the definitions, and `T1` and `T2` are the two sums of a round. -/
theorem sha256RoundsAndResult : Obligations.Sha256RoundsAndResult :=
  ⟨rfl, fun H W _ => ⟨rfl, fun t _ => ⟨_, _, rfl, rfl, rounds256_succ W H t⟩, rfl⟩⟩

end Sys2Proof.Machine
end

section
/-! SUPPORT. The one-shot commands (R170 to R176): DIGEST and DLEN, and DIGEST against the streamed message. -/

namespace Sys2Proof.Machine

/-! DIGEST and the streamed message (R171). -/

/-- R16, R101, R103: after INIT and FEEDs the channel is open and holds the joined payloads. -/
theorem execAll_init_feeds (c : Chan) (s : State) (parts : List (List Byte)) :
    ∃ t, execAll (.init c :: parts.map (Instr.feed c)) s = .next t ∧ (t.channel c).phase.isOpen = true ∧
      (t.channel c).Holds c.algo parts.flatten := by
  obtain ⟨t, _, ht, -, hc, -⟩ :=
    execAll_feeds (c := c) (s := s.applyReply c (.done (Channel.create c.algo) []))
      (by rw [State.applyReply_channel]; rfl) parts
  rw [State.applyReply_channel] at hc
  refine ⟨t, (execAll_cons_next (exec_init c s) _).trans ht, ?_, ?_⟩
  · rw [hc]; exact Channel.foldl_accept_isOpen _ rfl parts
  · rw [hc]; exact Channel.foldl_accept_holds _ (Channel.create_holds _) parts

/-- R110: FINAL on an open channel that holds a message answers the message's hash. -/
theorem exec_final_of_holds {c : Chan} {s : State} {m : List Byte} (hopen : (s.channel c).phase.isOpen = true)
    (h : (s.channel c).Holds c.algo m) : ∃ t, exec (.final c) s = .next t ∧
      t.rspq = s.rspq ++ responseFrame .ok c.number (serialize (messageHash c.algo m)) := by
  refine ⟨_, exec_final_open hopen, ?_⟩
  rw [State.applyReply_rspq, ← Channel.finish_holds _ h]; rfl

/-- Settles O29: the streamed channel holds the joined message, and FINAL and DIGEST both answer its hash. -/
theorem digestEqualsInitFeedFinal : Obligations.DigestEqualsInitFeedFinal := by
  intro c s parts
  obtain ⟨t, ht, hopen, hholds⟩ := execAll_init_feeds c s parts
  obtain ⟨u, hu, hru⟩ := exec_final_of_holds hopen hholds
  have hv := exec_digest c parts.flatten s
  have hch := exec_query_channels hv (.inl rfl)
  exact ⟨t, u, _, _, ht, hu, hru, hv, State.applyReply_rspq .., hch .sha1, hch .sha256⟩

/-! The digest length (R174 to R176). -/

/-- Settles O31: the RCOUNT of an OK response is the table's, and the room of the response gives its data words. -/
theorem digestLengthIsConstant : Obligations.DigestLengthIsConstant := by
  refine ⟨fun i s t rh rd hi ht hr hok => ?_, fun n H => serialize_length H⟩
  obtain ⟨t', rh', rd', ht', hr', hroom, hwords, -, htable⟩ := responseLengthsOfTheTable i s
  rw [ht] at ht'
  cases ht'
  rw [hr] at hr'
  cases List.append_cancel_left hr'
  have hcount := htable hok
  have hlength : rh.toNat % 2 ^ 16 = if i.chan = .sha1 then 20 else 32 := by
    cases i with
    | final c => cases c <;> exact hcount
    | digest c d => cases c <;> exact hcount
    | _ => simp [Instr.opcode] at hi
  refine ⟨hlength, ?_⟩
  rw [hwords, ← hroom, hlength]
  split <;> rfl

/-- R175: DLEN answers the digest length and leaves the channel as it is. -/
theorem exec_dlen (c : Chan) (s : State) :
    exec (.dlen c) s = .next (s.applyReply c (.done (s.channel c) (be32 (BitVec.ofNat 32 (digestLength c))))) :=
  exec_eq_applyReply (.dlen c) s

/-- Settles O27: DLEN's frame is its header, and its reply is the digest length. -/
theorem dlenAnswersTheDigestLength : Obligations.DlenAnswersTheDigestLength := by
  refine ⟨fun rest => ⟨decodeFrame_header .dlen .sha1 rest, decodeFrame_header .dlen .sha256 rest⟩,
    fun s => ?_, fun s => ?_⟩
  · rw [exec_dlen, State.applyReply_done_sha1, responseFrame_be32]; rfl
  · rw [exec_dlen, State.applyReply_done_sha256, responseFrame_be32]; rfl

/-! DIGEST's answer (R170, R173). -/

/-- Settles O28: the header of every COUNT is DIGEST's, and its reply is the hash words of a scratch channel. -/
theorem digestAnswersAndChangesNothing : Obligations.DigestAnswersAndChangesNothing := by
  refine ⟨fun n ws rest hn hws => ?_, fun s data => ?_, fun s data => ?_⟩
  · have hframe (c : Chan) := decodeFrame_headerWord (op := .digest) c hn (.inl rfl) hws rest
    simp only [headerWord_eq_ofNat _ _ hn] at hframe
    exact ⟨hframe .sha1, hframe .sha256⟩
  · rw [exec_digest, ← digestWords_spec, State.applyReply_done_sha1, responseFrame_serialize]; rfl
  · rw [exec_digest, ← digestWords_spec, State.applyReply_done_sha256, responseFrame_serialize]; rfl

end Sys2Proof.Machine
end

section
/-! SUPPORT. Errors and holds (R181 to R184, R196, R202, R204): what a step that answers an error changes, when the
engine has no frame to take, and that no payload is refused. -/

namespace Sys2Proof.Machine

/-! Errors change nothing (R184). -/

/-- R14, R184: to carry out a raised status is to raise it. -/
theorem State.applyReply_raised (s : State) (c : Chan) (st : Status) :
    s.applyReply c (.raised st) = s.raise st c.number := by cases c <;> rfl

/-- R184: a command that answers a status other than OK only raises it. -/
theorem exec_of_status_ne_ok {i : Instr} {s : State} (h : (s.reply i).status ≠ .ok) :
    exec i s = .next (s.raise (s.reply i).status i.chan.number) := by
  rw [exec_eq_applyReply]
  cases hr : s.reply i with
  | done ch bytes => rw [hr] at h; exact absurd rfl h
  | raised st => rw [State.applyReply_raised]; rfl

/-- R44, R70, R200: a step that makes the response port longer is the engine's, as its own step or as its turn. -/
theorem engineStep_of_step_grows {s t : State} (h : step s = .next t) (hlt : s.rspq.length < t.rspq.length) :
    engineStep s = .next t ∨ ∃ ts, s.env.turns = .engine :: ts ∧ engineStep (s.withTurns ts) = .next t := by
  rcases step_next h with h | ⟨ts, hT, rfl | h⟩ | ⟨host, w, ts, -, -, -, rfl⟩ | ⟨w, ws, ts, -, e, rfl⟩ | ⟨ts, -, rfl⟩
  · exact .inl h
  · exact absurd hlt (Nat.lt_irrefl _)
  · exact .inr ⟨ts, hT, h⟩
  · exact absurd hlt (Nat.lt_irrefl _)
  · rw [e, List.length_cons, State.remove_rspq] at hlt; omega
  · exact absurd hlt (Nat.not_lt_zero _)

section
variable {s t : State} {rh : Word} {rd : List Word} (h : engineStep s = .next t) (hr : t.rspq = s.rspq ++ rh :: rd)
  (hne : rh.toNat / 2 ^ 24 ≠ 0)
include h hr hne

/-- R66, R184: a step of the engine that answers a status other than OK takes words from the command port, raises the
status, and does nothing else. -/
theorem engineStep_error_raises : ∃ st chan, t = (s.consume t.cmdq).raise st chan := by
  rcases engineStep_next h with ⟨i, rest, -, -, he⟩ | ⟨cause, hd, rest, -, -, rfl⟩
  · have hst : ((s.consume rest).reply i).status ≠ .ok := by
      rw [exec_eq_applyReply] at he
      cases he
      rw [State.applyReply_rspq, State.consume_rspq] at hr
      obtain ⟨rfl, -⟩ := List.cons.inj (List.append_cancel_left hr)
      rwa [responseHeader_status, ne_eq, Status.code_toNat_eq_zero_iff] at hne
    rw [exec_of_status_ne_ok hst] at he
    cases he
    exact ⟨_, _, rfl⟩
  · exact ⟨_, _, rfl⟩

/-- R61, R184: what it takes is its whole frame, and what it appends is the one header. -/
theorem engineStep_error_changes_nothing :
    rd = [] ∧ ∃ hd data rest, s.cmdq = hd :: data ++ rest ∧ data.length = (hd.toNat % 2 ^ 16 + 3) / 4 ∧
      t = { s with cmdq := rest, rspq := s.rspq ++ [rh] } := by
  obtain ⟨hd, data, hq, hlen⟩ := engineStep_takes_frame h
  obtain ⟨st, chan, ht⟩ := engineStep_error_raises h hr hne
  have hanswer : responseFrame st chan [] = rh :: rd := by
    rw [ht, State.raise_rspq, State.consume_rspq] at hr
    exact List.append_cancel_left hr
  obtain ⟨rfl, rfl⟩ := List.cons.inj hanswer
  exact ⟨rfl, hd, data, t.cmdq, hq, by rw [hlen, dataWords_eq], ht⟩

end

/-- Settles O34: only the engine answers, and where it answers an error it has only raised it behind the frame. -/
theorem errorsChangeNothing : Obligations.ErrorsChangeNothing := by
  intro s t rh rd h hr hne
  have hgrows : s.rspq.length < t.rspq.length := by rw [hr, List.length_append, List.length_cons]; omega
  rcases engineStep_of_step_grows h hgrows with hs | ⟨ts, hT, hs⟩
  · obtain ⟨hrd, hd, data, rest, hq, hlen, ht⟩ := engineStep_error_changes_nothing hs hr hne
    exact ⟨hrd, hd, data, rest, hq, hlen, .inl ht⟩
  · obtain ⟨hrd, hd, data, rest, hq, hlen, ht⟩ := engineStep_error_changes_nothing hs hr hne
    exact ⟨hrd, hd, data, rest, hq, hlen, .inr ⟨ts, hT, ht⟩⟩

/-! No whole frame (R196, R202, R204). -/

/-- R196, R202: without a word the engine is idle. -/
theorem engineStep_of_no_header {s : State} (h : s.cmdq = []) : engineStep s = .fault .engineIdle := by
  simp only [engineStep, h, decodeFrame]

/-- R204: a header without all its data words is an incomplete frame. -/
theorem engineStep_of_missing_words {s : State} {h : Word} {tail : List Word} (hq : s.cmdq = h :: tail)
    (hl : tail.length < dataWords h) : engineStep s = .fault .incompleteFrame := by
  simp only [engineStep, hq, decodeFrame, if_pos hl]

/-- Settles O8: in both cases the engine is held. -/
theorem engineHoldsOnIncompleteFrame : Obligations.EngineHoldsOnIncompleteFrame :=
  ⟨fun _ hq => step_of_held (engineStep_of_no_header hq),
    fun _ h _ hq hl => step_of_held (engineStep_of_missing_words hq ((dataWords_eq h).symm ▸ hl))⟩

/-! Every payload is accepted (R183). -/

/-- R70, R71: the header of an OK response says so. -/
theorem responseHeader_ok_status (chan : BitVec 4) (k : Nat) : (responseHeader .ok chan k).toNat / 2 ^ 24 = 0 := by
  rw [responseHeader_status]; rfl

/-- R21: every channel has hash words. -/
theorem hashWords_toList_ne_nil {c : Chan} (H : Vector Word c.hashWords) : H.toList ≠ [] := by
  rw [← List.length_pos_iff, Vector.length_toList]; cases c <;> decide

/-- Settles O35: an open channel accepts any FEED with a bare header, and DIGEST answers its payload's hash words. -/
theorem noCommandFailsForItsData : Obligations.NoCommandFailsForItsData := by
  refine ⟨fun i s => ⟨_, exec_next i s⟩, fun c data s hp => ?_, fun c data s => ?_⟩
  · rw [← Phase.isOpen_iff, State.phaseOf_eq_channel_phase] at hp
    exact ⟨_, _, exec_feed_open hp data, State.applyReply_rspq .., responseHeader_ok_status ..⟩
  · have hanswer := s.applyReply_rspq c (.done (s.channel c) (serialize (messageHash c.algo data)))
    exact ⟨_, _, _, exec_digest c data s, hanswer.trans (congrArg _ (responseFrame_serialize ..)),
      responseHeader_ok_status .., hashWords_toList_ne_nil _⟩

end Sys2Proof.Machine
end

section
/-! SUPPORT. Liveness of the engine (R204, R205, R210): a whole frame whose response fits is always taken. -/

namespace Sys2Proof.Machine

/-- R204, R205: a ready engine takes the head frame: it rejects an illegal one and executes a command, and no command
is ever stopped. -/
theorem engineStep_of_ready {s : State} (hready : s.EngineReady) : ∃ t, engineStep s = .next t := by
  obtain ⟨h, tail, hq, hwhole, hroom⟩ := hready
  have hframe := decodeFrame_of_complete hwhole
  rw [← hq] at hframe
  cases hh : decodeHeader h with
  | error cause =>
    rw [hh] at hframe
    rw [hframe] at hroom
    exact ⟨_, engineStep_of_illegal_fits hframe hroom⟩
  | ok p =>
    rw [hh] at hframe
    rw [hframe] at hroom
    exact ⟨_, (engineStep_of_fits hframe hroom).trans (exec_next _ _)⟩

/-- Settles O13: with nothing scheduled the step is the engine's, and the engine is ready. -/
theorem readyEngineHasAStep : Obligations.ReadyEngineHasAStep := by
  intro s hT hready
  rw [step_of_no_turns hT]
  exact engineStep_of_ready hready

end Sys2Proof.Machine
end
